-- ==== Sys2Proof/Config.lean ====
section
/-! DEFINITION. The implementation parameters of 00_scope.md rule R7 and the constants of the
identification registers (10_state.md rules R30 to R32). There are no configuration switches (R8) and
the spec leaves no value of the block open, so no constant here is opaque. `BASE` and `BUS_PROTOCOL`
belong to the platform (log 11). -/

namespace Sys2Proof.Config

/-- Most distinct symbols, `2 ^ SYM_W` (R7). -/
@[reducible, simp] def kMax : Nat := 256
/-- Node records, `2 * K_MAX - 1` (R7). -/
@[reducible, simp] def nodeMax : Nat := 511
/-- Longest code word in bits, `K_MAX - 1` (R7, R208). -/
@[reducible, simp] def codeMax : Nat := 255
/-- Capacity of SYMBUF and of DSYM in symbols (R7). -/
@[reducible, simp] def nMax : Nat := 4096
/-- Capacity of BITBUF in bits (R7). -/
@[reducible, simp] def mMax : Nat := 32768
/-- BITBUF in 32-bit words (R62). -/
@[reducible, simp] def bitWords : Nat := 1024

/-- ID, the ASCII bytes 'A','Y','H','C' (R30). -/
def idWord : BitVec 32 := 0x41594843#32
/-- PARAM0, `CODE_MAX, WGT_W, CNT_W, SYM_W` (R31). -/
def param0Word : BitVec 32 := 0xFF282008#32
/-- PARAM1, `M_MAX, N_MAX` (R32). -/
def param1Word : BitVec 32 := 0x80001000#32

end Sys2Proof.Config
end

