-- ==== Sys2Proof/Word.lean ====
section
/-! DEFINITION. The widths of the block's values (00_scope.md rules R7 and R11). Everything is unsigned
(R11, R144). -/

namespace Sys2Proof

/-- A bus word or a command word: `BUS_W` bits (R7). -/
abbrev Word := BitVec 32
/-- A byte offset in the 64 KiB window (R60). -/
abbrev Offset := BitVec 16
/-- A symbol, named by its ordinal: `SYM_W` bits (R12). -/
abbrev Symbol := BitVec 8
/-- A frequency count: `CNT_W` bits (R7). -/
abbrev Count := BitVec 32
/-- A node weight: `WGT_W` bits (R7). -/
abbrev Weight := BitVec 40
/-- A node index: `NIDX_W` bits (R7). -/
abbrev NodeIdx := BitVec 9
/-- The length of a code word: `LEN_W` bits (R7, R11). -/
abbrev CodeLen := BitVec 8
/-- A position in SYMBUF or DSYM, or a length of either: 13 bits, `0 .. N_MAX` (R11). -/
abbrev SymPos := BitVec 13
/-- A bit position in BITBUF, or the length of the stream: 16 bits, `0 .. M_MAX` (R11). -/
abbrev BitPos := BitVec 16
/-- A code word's vector of `CODE_MAX` bits; element 0 is the most significant bit (R41, R74). -/
abbrev CodeVec := BitVec 255

end Sys2Proof
end

