-- ==== Sys2Proof/Syntax.lean ====
section
/-! DEFINITION. The seven commands (30_encoding.md rule R104) and the raw fields of a command word
(R101). -/

namespace Sys2Proof

/-- The commands, one constructor per row of `spec/opcode_table.json`. CLEAR alone carries an operand:
its six independent mask bits, bit `b` being command word bit `8 + b` (R103, R140). -/
inductive Instr where
  | nop
  | analyze
  | build
  | derive
  | encode
  | decode
  | clear (mask : BitVec 6)
deriving DecidableEq, Repr

/-- The fields of a word of format CMD (R101). -/
structure CmdFields where
  /-- bits 3:0 -/
  op : BitVec 4
  /-- bits 7:4, must be zero -/
  z0 : BitVec 4
  /-- bits 13:8, zero but for CLEAR -/
  mask : BitVec 6
  /-- bits 31:14, must be zero -/
  z1 : BitVec 18
deriving DecidableEq, Repr

end Sys2Proof
end

