-- ==== Sys2Proof/Machine/State.lean ====
section
/-! DEFINITION. The state of an AYHC as plain data (10_state.md rules R20 to R48) with its reset values
(R50), and the reasons a step can stop. ID, PARAM0, PARAM1 are constants (`Config`), `irq` is a function
of two bits (R38, `irq` in Flags.lean); every other element of rule R20 is a field here. The last two
fields are the model's own: which events are still to come, and what the last transaction answered
(log 3). -/

namespace Sys2Proof.Machine

/-- What sequences the engine, the values of 40_command_framework.md rule R135. -/
inductive Phase where
  | idle | dispatch
  | nRun | xClr
  | aClr | aCount
  | bClr | bScan | bCheck | bMerge | bRoot
  | cClr | cCheck | cRoot | cWalk
  | eClr | eSym | eFin
  | dClr | dLmax | dBit | dEnd
deriving DecidableEq, Repr

/-- A memory array as data: (index, element) pairs, indexes strictly rising, no element equal to the
all-zero element that an unlisted index reads as (R50, log 1). -/
abbrev Store (α : Type) := List (Nat × α)

/-- A record of the TreeNode store (R40). -/
structure NodeRec where
  used : Bool
  leaf : Bool
  sym : Symbol
  weight : Weight
  left : NodeIdx
  right : NodeIdx
deriving DecidableEq, Repr

/-- An entry of the codebook (R41). -/
structure CodeEntry where
  valid : Bool
  len : CodeLen
  code : CodeVec
deriving DecidableEq, Repr

/-- An entry of the traversal stack (R46). -/
structure StkEntry where
  node : NodeIdx
  depth : CodeLen
  path : CodeVec
deriving DecidableEq, Repr

/-- The all-zero record (R40, R50). -/
def NodeRec.zero : NodeRec := ⟨false, false, 0, 0, 0, 0⟩
/-- The absent entry (R41, R50). -/
def CodeEntry.zero : CodeEntry := ⟨false, 0, 0⟩
/-- The stack entry of the reset state (R50). -/
def StkEntry.zero : StkEntry := ⟨0, 0, 0⟩

/-- The six memories (R39 to R44). SYMBUF and DSYM elements are bytes; BITBUF is held in words of 32
stream bits (R73, R74, log 14). -/
structure Memory where
  freq : Store Count
  node : Store NodeRec
  cb : Store CodeEntry
  symbuf : List Host.Cell
  bitbuf : Store Word
  dsym : List Host.Cell
deriving DecidableEq, Repr

/-- The hidden working state (R45 to R48), at the widths of rule R11: CLEN and LMAX are code lengths, `j` and
`e` positions in SYMBUF and DSYM, CSTART and `t` bit positions. HEAP_CNT, SP and `i` have a range and no width
(log 6). -/
structure Work where
  heap : Store NodeIdx
  heapCnt : Nat
  stk : Store StkEntry
  sp : Nat
  cand : CodeVec
  clen : CodeLen
  cstart : BitPos
  lmax : CodeLen
  i : Nat
  j : SymPos
  t : BitPos
  e : SymPos
deriving DecidableEq, Repr

/-- An action of the host (R60, R61, R130, R300). `size` is in bytes; only 4 is served (R65). -/
inductive HostAction where
  | read (size : Nat) (off : Offset)
  | write (size : Nat) (off : Offset) (v : Word)
  | hardReset
deriving DecidableEq, Repr

/-- What happens next: an action of the host, one engine step (R136), or the engine running its command
to completion with nothing in between (R138). -/
inductive Event where
  | host (a : HostAction)
  | engineStep
  | engineRun
deriving DecidableEq, Repr

/-- What a transaction returns (R60, R61). -/
inductive Response where
  | value (v : Word)
  | ok
  | accessError
deriving DecidableEq, Repr

/-- The state of the block. -/
structure State where
  /-- CTRL.IE (R33) -/
  ie : Bool
  /-- CMD (R34) -/
  cmd : Word
  /-- STATUS.BUSY (R35) -/
  busy : Bool
  /-- STATUS.DONE (R35) -/
  done : Bool
  /-- STATUS.TREE_VALID (R35) -/
  treeValid : Bool
  /-- STATUS.ERR (R35) -/
  err : BitVec 4
  /-- ERRINFO (R36) -/
  errinfo : Word
  /-- ERRLOG (R37) -/
  errlog : Word
  /-- SYMLEN (R22) -/
  symlen : SymPos
  /-- BITLEN (R23) -/
  bitlen : BitPos
  /-- DSYMLEN (R25) -/
  dsymlen : SymPos
  /-- ROOT (R26) -/
  root : NodeIdx
  /-- NNODES (R27) -/
  nnodes : BitVec 10
  /-- NLEAVES (R28) -/
  nleaves : BitVec 9
  /-- the six memories (R39 to R44) -/
  mem : Memory
  /-- the sequencing register (R24) -/
  phase : Phase
  /-- the latched opcode (R24) -/
  op : BitVec 4
  /-- the latched mask (R24) -/
  opmask : BitVec 6
  /-- the hidden working state (R45 to R48) -/
  work : Work
  /-- the model's own: the events still to come, the next one first (log 3) -/
  schedule : List Event
  /-- the model's own: what the last transaction returned (log 3) -/
  response : Option Response
deriving DecidableEq, Repr

/-- Why a step stops. The spec's block never stops (R296): a command's fault and an access error are
next states. -/
inductive Fault where
  /-- Raised by a meaning whose command has not completed within the engine steps rule R146 allows.
  Safe: no state a run reaches raises it (the step bounds of R146); in a state whose tree is not one
  (10_state.md R52 broken) DERIVE may walk for ever, and the model stops instead (log 8). -/
  | stepBoundExceeded
deriving DecidableEq, Repr

/-- Why an instruction has no meaning. -/
inductive Refusal where
  /-- Raised by an arm of `exec` for an instruction without a meaning; no arm does. Safe. -/
  | notModelled (mnemonic : String)
deriving DecidableEq, Repr

/-- The memories after reset: all zero (R50). -/
def Memory.empty : Memory := ⟨[], [], [], [], [], []⟩

/-- The hidden working state after reset: all zero (R50). -/
def Work.zero : Work := ⟨[], 0, [], 0, 0, 0, 0, 0, 0, 0, 0, 0⟩

/-- The block after reset (R50), with nothing scheduled and no transaction answered yet (log 3). -/
def State.reset : State where
  ie := false
  cmd := 0
  busy := false
  done := false
  treeValid := false
  err := 0
  errinfo := 0
  errlog := 0
  symlen := 0
  bitlen := 0
  dsymlen := 0
  root := 0
  nnodes := 0
  nleaves := 0
  mem := Memory.empty
  phase := .idle
  op := 0
  opmask := 0
  work := Work.zero
  schedule := []
  response := none

end Sys2Proof.Machine
end

