-- ==== Sys2Proof/Machine/Flags.lean ====
section
/-! DEFINITION. The three flags and the fault report: STATUS, ERRINFO, ERRLOG and the output `irq`
(10_state.md rules R29, R35 to R38; 60_exceptions.md rule R271). -/

namespace Sys2Proof.Machine

/-- The five command faults (R271). -/
inductive CmdFault where
  | invalidInput
  | missingCode
  | corruptStream
  | capacityExceeded
  | illegalCommand
deriving DecidableEq, Repr

/-- The fault code, as STATUS.ERR shows it and as ERRLOG numbers its bits (R271). -/
def faultCode : CmdFault → BitVec 4
  | .invalidInput => 1
  | .missingCode => 2
  | .corruptStream => 3
  | .capacityExceeded => 4
  | .illegalCommand => 5

/-- STATUS as read (R35): while BUSY exactly `0x00000001`. -/
def statusWord (s : State) : Word :=
  if s.busy then 0x00000001#32
  else (0#20 ++ s.err ++ 0#5 ++ BitVec.ofBool s.treeValid ++ BitVec.ofBool s.done ++ 0#1 : BitVec 32)

/-- The interrupt output (R38). -/
def irq (s : State) : Bool := s.done && s.ie

/-- ERRINFO's four fields in place (R36, R278 clause 3). -/
def packErrinfo (op sub : BitVec 4) (sym : Symbol) (idx : BitVec 16) : Word :=
  (op ++ sub ++ sym ++ idx : BitVec 32)

/-- ERRLOG with the bit of a fault code set (R37, R278 clause 4). -/
def logFault (log : Word) (f : CmdFault) : Word := log ||| (1#32 <<< (faultCode f).toNat)

/-- ERRLOG after a write of `v`: a 1 clears its bit, a 0 leaves it (R37). -/
def ackErrlog (log v : Word) : Word := log &&& ~~~v

/-- STATUS.DONE after a write of `v` to STATUS (R35): bit 1 is write-1-to-clear. -/
def ackDone (done : Bool) (v : Word) : Bool := done && !v.getLsbD 1

end Sys2Proof.Machine
end

