-- ==== Sys2Proof/Machine/Ops.lean ====
section
/-! DEFINITION. The operations over memory and registers that the commands and the host share: arrays as
data, the six memories element by element (20_memory.md rule R80), emptying an artifact, acceptance,
dispatch, completion, fault entry (60_exceptions.md rule R278), hard reset, and running a command's
phases. There is no return from a fault to write beside fault entry: nothing is saved (R285). -/

namespace Sys2Proof.Machine

/-- The element at an index; `d` where the index is not listed. -/
def Store.read {α : Type} (d : α) : Store α → Nat → α
  | [], _ => d
  | (k, v) :: m, a => if a = k then v else Store.read d m a

/-- Storing an element, in canonical form: writing `d` removes the entry. -/
def Store.write {α : Type} [DecidableEq α] (d : α) : Store α → Nat → α → Store α
  | [], a, v => if v = d then [] else [(a, v)]
  | (k, w) :: m, a, v =>
    if a < k then (if v = d then (k, w) :: m else (a, v) :: (k, w) :: m)
    else if a = k then (if v = d then m else (k, v) :: m)
    else (k, w) :: Store.write d m a v

/-- Storing an element of an array of `size` elements. An index that names no element stores nothing;
no state a run reaches forms one (R80, log 7). -/
def Store.put {α : Type} [DecidableEq α] (size : Nat) (d : α) (m : Store α) (a : Nat) (v : α) : Store α :=
  if a < size then Store.write d m a v else m

/-- The canonical form of an array of `size` elements: indexes strictly rising and below `size`, no
element equal to what an unlisted index reads as. -/
abbrev Store.WF {α : Type} (size : Nat) (d : α) (m : Store α) : Prop :=
  List.Pairwise (fun p q => p.1 < q.1) m ∧ ∀ p ∈ m, p.1 < size ∧ p.2 ≠ d

/-- Every memory is in canonical form (log 1). -/
abbrev Memory.wf (m : Memory) : Prop :=
  Store.WF Config.kMax (0 : Count) m.freq ∧ Store.WF Config.nodeMax NodeRec.zero m.node ∧
  Store.WF Config.kMax CodeEntry.zero m.cb ∧ Store.WF Config.nMax (0 : Symbol) m.symbuf ∧
  Store.WF Config.bitWords (0 : Word) m.bitbuf ∧ Store.WF Config.nMax (0 : Symbol) m.dsym

/-! The memories element by element (R80). -/

/-- `FREQ[s]` (R39). -/
def freqAt (m : Memory) (s : Symbol) : Count := Store.read 0 m.freq s.toNat
/-- `FREQ[s] <- c`. -/
def setFreq (m : Memory) (s : Symbol) (c : Count) : Memory :=
  { m with freq := Store.put Config.kMax 0 m.freq s.toNat c }

/-- `NODE[n]` (R40). -/
def nodeAt (m : Memory) (n : Nat) : NodeRec := Store.read NodeRec.zero m.node n
/-- `NODE[n] <- r`. -/
def setNode (m : Memory) (n : Nat) (r : NodeRec) : Memory :=
  { m with node := Store.put Config.nodeMax NodeRec.zero m.node n r }

/-- `CB[s]` (R41). -/
def cbAt (m : Memory) (s : Symbol) : CodeEntry := Store.read CodeEntry.zero m.cb s.toNat
/-- `CB[s] <- c`. -/
def setCb (m : Memory) (s : Symbol) (c : CodeEntry) : Memory :=
  { m with cb := Store.put Config.kMax CodeEntry.zero m.cb s.toNat c }

/-- `SYMBUF[j]` (R42). -/
def symAt (m : Memory) (j : Nat) : Symbol := Store.read 0 m.symbuf j
/-- `SYMBUF[j] <- s`. -/
def setSym (m : Memory) (j : Nat) (s : Symbol) : Memory :=
  { m with symbuf := Store.put Config.nMax 0 m.symbuf j s }

/-- `DSYM[e]` (R44). -/
def dsymAt (m : Memory) (e : Nat) : Symbol := Store.read 0 m.dsym e
/-- `DSYM[e] <- s`. -/
def setDsym (m : Memory) (e : Nat) (s : Symbol) : Memory :=
  { m with dsym := Store.put Config.nMax 0 m.dsym e s }

/-- Word `w` of BITBUF (R73). -/
def bitWordAt (m : Memory) (w : Nat) : Word := Store.read 0 m.bitbuf w
/-- Word `w` of BITBUF stored. -/
def setBitWord (m : Memory) (w : Nat) (v : Word) : Memory :=
  { m with bitbuf := Store.put Config.bitWords 0 m.bitbuf w v }

/-! Artifacts and their emptying (R12, R103, R137). -/

/-- The six artifacts, in the order of CLEAR's mask bits (R103). -/
inductive Artifact where
  | freq | tree | cb | sym | bit | dsym
deriving DecidableEq, Repr

/-- Emptying an artifact: every memory element of it to 0, its length and count registers to 0, its
valid flag to 0 (R137, R140). -/
def emptyArtifact (a : Artifact) (s : State) : State :=
  match a with
  | .freq => { s with mem := { s.mem with freq := [] } }
  | .tree =>
    { s with mem := { s.mem with node := [] }, root := 0, nnodes := 0, nleaves := 0, treeValid := false }
  | .cb => { s with mem := { s.mem with cb := [] } }
  | .sym => { s with mem := { s.mem with symbuf := [] }, symlen := 0 }
  | .bit => { s with mem := { s.mem with bitbuf := [] }, bitlen := 0 }
  | .dsym => { s with mem := { s.mem with dsym := [] }, dsymlen := 0 }

/-- Emptying the destination of a command, where it has one. -/
def emptyDest (dest : Option Artifact) (s : State) : State :=
  match dest with
  | none => s
  | some a => emptyArtifact a s

/-! The life of a command. -/

/-- Acceptance of a command word (R132). -/
def acceptCommand (w : Word) (s : State) : State :=
  { s with cmd := w, busy := true, done := false, err := 0, errinfo := 0, phase := .dispatch }

/-- Dispatch of a legal command (R133): `op` and `opmask` latched, the command's first phase next. -/
def dispatchTo (op : BitVec 4) (opmask : BitVec 6) (first : Phase) (s : State) : State :=
  { s with op := op, opmask := opmask, phase := first }

/-- Completion without fault (R134). -/
def completeCommand (s : State) : State := { s with phase := .idle, busy := false, done := true }

/-- Fault entry, `raise f(sub, sym, idx)` (R278): the destination of the running command is emptied, ERR,
ERRINFO and the fault's ERRLOG bit are set, and the engine is idle with DONE set. `op` is `CMD[3:0]`. -/
def raiseFault (dest : Option Artifact) (f : CmdFault) (sub : BitVec 4) (sym : Symbol)
    (idx : BitVec 16) (s : State) : State :=
  let s' := emptyDest dest s
  { s' with
    err := faultCode f
    errinfo := packErrinfo (s.cmd.extractLsb' 0 4) sub sym idx
    errlog := logFault s.errlog f
    phase := .idle
    busy := false
    done := true }

/-- Hard reset (R300): every element of the spec's state at its reset value. What is still scheduled and
what the last transaction answered are the environment's, not the block's (log 10). -/
def hardReset (s : State) : State :=
  { State.reset with schedule := s.schedule, response := s.response }

/-- The engine is idle. -/
def Phase.isIdle : Phase → Bool
  | .idle => true
  | _ => false

/-- Taking engine steps until the engine is idle, at most `fuel` of them. -/
def runToIdle (f : State → State) : Nat → State → State
  | 0, s => s
  | fuel + 1, s => if s.phase.isIdle then s else runToIdle f fuel (f s)

/-- The outcome of a command run to completion: the next state if it completed (log 8). -/
def commandOutcome (s : State) : Host.Outcome State Fault Refusal :=
  if s.phase.isIdle then .next s else .fault .stepBoundExceeded

end Sys2Proof.Machine
end

