-- ==== Sys2Proof/Machine/Operands.lean ====
section
/-! DEFINITION. The operands of the commands and the layouts of the words the host sees: bit sequences in
words (20_memory.md rule R74), node records (R75), codebook entries (R76), CLEAR's mask (R103), the match
relation of the decoder (45_decode.md rule R244). -/

namespace Sys2Proof.Machine

/-! Bit sequences. Element `i` of a sequence is the `i`-th bit from the most significant end (R74). -/

/-- `q[i]`. -/
def seqBit {n : Nat} (q : BitVec n) (i : Nat) : Bool := q.getMsbD i

/-- `q[i] <- b`; an index past the end names no element. -/
def setSeqBit {n : Nat} (q : BitVec n) (i : Nat) (b : Bool) : BitVec n :=
  if i < n then
    (if b then q ||| BitVec.twoPow n (n - 1 - i) else q &&& ~~~BitVec.twoPow n (n - 1 - i))
  else q

/-- `BITBUF[t]`, a bit of word `t >> 5` (R43, R74). -/
def bitAt (m : Memory) (t : Nat) : Bool := seqBit (bitWordAt m (t / 32)) (t % 32)

/-- `BITBUF[t] <- b`. -/
def setBit (m : Memory) (t : Nat) (b : Bool) : Memory :=
  setBitWord m (t / 32) (setSeqBit (bitWordAt m (t / 32)) (t % 32) b)

/-- `for b in 0 .. L-1: BITBUF[t + b] <- code[b]` (R222). -/
def putBits (m : Memory) (t : Nat) (code : CodeVec) : Nat → Memory
  | 0 => m
  | b + 1 => setBit (putBits m t code b) (t + b) (seqBit code b)

/-! The words of the codebook and of the node store. -/

/-- CODE`w` of a codebook entry: the code word in 8 words, the last bit of CODE7 undefined (R76). -/
def codeWord (code : CodeVec) (w : Nat) : Word :=
  (code ++ 0#1 : BitVec 256).extractLsb' (32 * (7 - w)) 32

/-- The code word after a write of CODE`w`. -/
def setCodeWord (code : CodeVec) (w : Nat) (v : Word) : CodeVec :=
  let lo := 32 * (7 - w)
  (((code ++ 0#1 : BitVec 256) &&& ~~~((0xFFFFFFFF#256) <<< lo)) ||| (v.setWidth 256 <<< lo)).extractLsb' 1 255

/-- CTL of a codebook entry (R76). -/
def ctlWord (c : CodeEntry) : Word := (BitVec.ofBool c.valid ++ 0#23 ++ c.len : BitVec 32)

/-- WLO of a node record: `weight[31:0]` (R75). -/
def wloWord (r : NodeRec) : Word := r.weight.extractLsb' 0 32
/-- WHI of a node record: `weight[39:32]` (R75). -/
def whiWord (r : NodeRec) : Word := (0#24 ++ r.weight.extractLsb' 32 8 : BitVec 32)
/-- CHILD of a node record: `left` in 8:0, `right` in 24:16 (R75). -/
def childWord (r : NodeRec) : Word := (0#7 ++ r.right ++ 0#7 ++ r.left : BitVec 32)
/-- INFO of a node record: `used` 31, `leaf` 30, `sym` 7:0 (R75). -/
def infoWord (r : NodeRec) : Word :=
  (BitVec.ofBool r.used ++ BitVec.ofBool r.leaf ++ 0#22 ++ r.sym : BitVec 32)

/-! CLEAR's operand. -/

/-- `opmask[b]`: the artifact's bit of the mask (R103). -/
def selects (mask : BitVec 6) : Artifact → Bool
  | .freq => mask.getLsbD 0
  | .tree => mask.getLsbD 1
  | .cb => mask.getLsbD 2
  | .sym => mask.getLsbD 3
  | .bit => mask.getLsbD 4
  | .dsym => mask.getLsbD 5

/-- Emptying an artifact where the mask selects it. -/
def emptySelected (mask : BitVec 6) (a : Artifact) (s : State) : State :=
  if selects mask a then emptyArtifact a s else s

/-! Matching (R244). -/

/-- Every symbol, ascending. -/
def allSymbols : List Symbol := (List.range Config.kMax).map (BitVec.ofNat 8)

/-- `CAND[0 .. CLEN-1]` exactly matches a codebook entry (R244). -/
def matchesEntry (cand : CodeVec) (clen : CodeLen) (c : CodeEntry) : Bool :=
  c.valid && c.len == clen && (List.range clen.toNat).all fun b => seqBit c.code b == seqBit cand b

/-- `M(CAND, CLEN)`: the symbols whose entry matches, ascending (R244). -/
def matchSet (m : Memory) (cand : CodeVec) (clen : CodeLen) : List Symbol :=
  allSymbols.filter fun s => matchesEntry cand clen (cbAt m s)

end Sys2Proof.Machine
end

