-- ==== Sys2Proof/Machine/Analyze.lean ====
section
/-! DEFINITION. ANALYZE, the Frequency Analyzer (41_analyze.md rules R160 and R161). -/

namespace Sys2Proof.Machine

/-- Phase A_CLR (R161). -/
def phaseAClr (s : State) : State :=
  let s' := emptyArtifact .freq s
  { s' with work := { s'.work with j := 0 }, phase := .aCount }

/-- Phase A_COUNT (R161): one symbol counted, or the end. -/
def phaseACount (s : State) : State :=
  if s.work.j = s.symlen then completeCommand s
  else
    let x := symAt s.mem s.work.j.toNat
    { s with
      mem := setFreq s.mem x (freqAt s.mem x + 1)
      work := { s.work with j := s.work.j + 1 }
      phase := .aCount }

/-- One engine step of ANALYZE. -/
def analyzeStep (s : State) : State :=
  match s.phase with
  | .aClr => phaseAClr s
  | .aCount => phaseACount s
  | _ => s

/-- ANALYZE (R160); at most `2 + SYMLEN` steps after dispatch (R146). -/
def execAnalyze (s : State) : Host.Outcome State Fault Refusal :=
  commandOutcome (runToIdle analyzeStep (2 + s.symlen.toNat) (dispatchTo 1 0 .aClr s))

end Sys2Proof.Machine
end

