-- ==== Sys2Proof/Machine/Queue.lean ====
section
/-! DEFINITION. The priority queue of the Tree Builder: a binary min-heap of node indices (10_state.md
rule R45; 42_build_tree.md rules R171 to R175). -/

namespace Sys2Proof.Machine

/-- `key(a) < key(b)`, the key of a node being `(weight, index)`, compared lexicographically (R173). -/
def keyLt (m : Memory) (a b : NodeIdx) : Bool :=
  decide ((nodeAt m a.toNat).weight < (nodeAt m b.toNat).weight) ||
    ((nodeAt m a.toNat).weight == (nodeAt m b.toNat).weight && decide (a < b))

/-- `HEAP[c]` (R45). -/
def heapAt (h : Store NodeIdx) (c : Nat) : NodeIdx := Store.read 0 h c

/-- `HEAP[c] <- n`. -/
def setHeap (h : Store NodeIdx) (c : Nat) (n : NodeIdx) : Store NodeIdx := Store.put Config.kMax 0 h c n

/-- `swap HEAP[a], HEAP[b]`. -/
def swapHeap (h : Store NodeIdx) (a b : Nat) : Store NodeIdx :=
  setHeap (setHeap h a (heapAt h b)) b (heapAt h a)

/-- The loop of `insert` (R172): the entry at `c` rises while it is less than its parent. The position at
least halves, so `c` rounds are enough. -/
def siftUp (m : Memory) : Nat → Nat → Store NodeIdx → Store NodeIdx
  | 0, _, h => h
  | fuel + 1, c, h =>
    if c = 0 then h
    else
      let p := (c - 1) / 2
      if keyLt m (heapAt h c) (heapAt h p) then siftUp m fuel p (swapHeap h c p) else h

/-- `insert(n)` (R172). -/
def heapInsert (m : Memory) (n : NodeIdx) (w : Work) : Work :=
  { w with
    heap := siftUp m w.heapCnt w.heapCnt (setHeap w.heap w.heapCnt n)
    heapCnt := w.heapCnt + 1 }

/-- The child of `c` to swap with, or `c` itself (R174): the least key of the three. -/
def leastChild (m : Memory) (cnt c : Nat) (h : Store NodeIdx) : Nat :=
  let l := 2 * c + 1
  let r := 2 * c + 2
  let s := if decide (l < cnt) && keyLt m (heapAt h l) (heapAt h c) then l else c
  if decide (r < cnt) && keyLt m (heapAt h r) (heapAt h s) then r else s

/-- The loop of `extract_min` (R174): the entry at `c` sinks below the lesser of its children. The
position grows, so `cnt` rounds are enough. -/
def siftDown (m : Memory) (cnt : Nat) : Nat → Nat → Store NodeIdx → Store NodeIdx
  | 0, _, h => h
  | fuel + 1, c, h =>
    let s := leastChild m cnt c h
    if s = c then h else siftDown m cnt fuel s (swapHeap h c s)

/-- `extract_min()` (R174): the index returned, and the queue without it. -/
def heapExtract (m : Memory) (w : Work) : NodeIdx × Work :=
  let cnt := w.heapCnt - 1
  let h := if 0 < cnt then siftDown m cnt cnt 0 (setHeap w.heap 0 (heapAt w.heap cnt)) else w.heap
  (heapAt w.heap 0, { w with heap := h, heapCnt := cnt })

end Sys2Proof.Machine
end

