-- ==== Sys2Proof/Machine/Build.lean ====
section
/-! DEFINITION. BUILD, the Tree Builder (42_build_tree.md rules R170 to R186). -/

namespace Sys2Proof.Machine

/-- A Leaf record (R40, R178); its weight is the count zero-extended (R176). -/
def leafRec (sym : Symbol) (count : Count) : NodeRec :=
  { used := true, leaf := true, sym := sym, weight := count.setWidth 40, left := 0, right := 0 }

/-- An Internal record (R40, R180). -/
def internalRec (weight : Weight) (l r : NodeIdx) : NodeRec :=
  { used := true, leaf := false, sym := 0, weight := weight, left := l, right := r }

/-- A record is allocated at the index NNODES has and inserted in the queue (R178, R180, R183). -/
def allocNode (r : NodeRec) (s : State) : State :=
  let mem := setNode s.mem s.nnodes.toNat r
  { s with mem := mem, work := heapInsert mem (s.nnodes.setWidth 9) s.work, nnodes := s.nnodes + 1 }

/-- Phase B_CLR (R177). -/
def phaseBClr (s : State) : State :=
  let s' := emptyArtifact .tree s
  { s' with work := { s'.work with heapCnt := 0, i := 0 }, phase := .bScan }

/-- Phase B_SCAN (R178): the leaf of ordinal `i`, if it has one. -/
def phaseBScan (s : State) : State :=
  let x := BitVec.ofNat 8 s.work.i
  let s' := if freqAt s.mem x ≠ 0 then allocNode (leafRec x (freqAt s.mem x)) s else s
  { s' with
    work := { s'.work with i := s.work.i + 1 }
    phase := if s.work.i + 1 = Config.kMax then .bCheck else .bScan }

/-- Phase B_CHECK (R179): the empty-table test. -/
def phaseBCheck (s : State) : State :=
  let s' := { s with nleaves := s.nnodes.setWidth 9 }
  if s.nnodes = 0 then raiseFault (some .tree) .invalidInput 0 0 0 s' else { s' with phase := .bMerge }

/-- Phase B_MERGE (R180): one merge, or the queue is down to the root. The first index extracted is the
left child (R182). -/
def phaseBMerge (s : State) : State :=
  if s.work.heapCnt = 1 then { s with phase := .bRoot }
  else
    let l := heapExtract s.mem s.work
    let r := heapExtract s.mem l.2
    let weight := (nodeAt s.mem l.1.toNat).weight + (nodeAt s.mem r.1.toNat).weight
    allocNode (internalRec weight l.1 r.1) { s with work := r.2, phase := .bMerge }

/-- Phase B_ROOT (R181). -/
def phaseBRoot (s : State) : State :=
  let m := heapExtract s.mem s.work
  completeCommand { s with root := m.1, work := m.2, treeValid := true }

/-- One engine step of BUILD. -/
def buildStep (s : State) : State :=
  match s.phase with
  | .bClr => phaseBClr s
  | .bScan => phaseBScan s
  | .bCheck => phaseBCheck s
  | .bMerge => phaseBMerge s
  | .bRoot => phaseBRoot s
  | _ => s

/-- BUILD (R170); at most `3 + K_MAX + k` steps after dispatch, `k` being at most `K_MAX` (R146). -/
def execBuild (s : State) : Host.Outcome State Fault Refusal :=
  commandOutcome (runToIdle buildStep (3 + 2 * Config.kMax) (dispatchTo 2 0 .bClr s))

end Sys2Proof.Machine
end

