-- ==== Sys2Proof/Machine/Decoder.lean ====
section
/-! DEFINITION. DECODE, the variable-length decoder (45_decode.md rules R240 to R253). -/

namespace Sys2Proof.Machine

/-- Phase D_CLR (R241). -/
def phaseDClr (s : State) : State :=
  let s' := emptyArtifact .dsym s
  { s' with
    work := { s'.work with e := 0, t := 0, clen := 0, cstart := 0, lmax := 0, i := 0 }
    phase := .dLmax }

/-- Phase D_LMAX (R242): the longest code word so far. -/
def phaseDLmax (s : State) : State :=
  let c := cbAt s.mem (BitVec.ofNat 8 s.work.i)
  { s with
    work := { s.work with
      lmax := if c.valid && decide (s.work.lmax < c.len) then c.len else s.work.lmax
      i := s.work.i + 1 }
    phase := if s.work.i + 1 = Config.kMax then .dBit else .dLmax }

/-- The end of phase D_BIT, after a bit was taken (R243): what the match set says. More than one match is
Ambiguous, one match emits the symbol or finds DSYM full, none goes on. -/
def emitMatch (hits : List Symbol) (s : State) : State :=
  match hits with
  | [] => { s with phase := .dBit }
  | [x] =>
    if s.work.e.toNat = Config.nMax then raiseFault (some .dsym) .capacityExceeded 2 x s.work.cstart s
    else
      { s with
        mem := setDsym s.mem s.work.e.toNat x
        work := { s.work with e := s.work.e + 1, clen := 0 }
        phase := .dBit }
  | x :: _ :: _ => raiseFault (some .dsym) .corruptStream 3 x s.work.cstart s

/-- Phase D_BIT (R243): one bit consumed and the candidate matched. -/
def phaseDBit (s : State) : State :=
  if s.work.t = s.bitlen then { s with phase := .dEnd }
  else
    let cstart := if s.work.clen = 0 then s.work.t else s.work.cstart
    let s1 := { s with work := { s.work with cstart := cstart } }
    if s.work.clen = s.work.lmax then raiseFault (some .dsym) .corruptStream 2 0 cstart s1
    else
      let cand := setSeqBit s.work.cand s.work.clen.toNat (bitAt s.mem s.work.t.toNat)
      let s2 := { s1 with work := { s1.work with cand := cand, clen := s.work.clen + 1, t := s.work.t + 1 } }
      emitMatch (matchSet s.mem cand (s.work.clen + 1)) s2

/-- Phase D_END (R245): the dangling test. -/
def phaseDEnd (s : State) : State :=
  if s.work.clen ≠ 0 then raiseFault (some .dsym) .corruptStream 1 0 s.work.cstart s
  else completeCommand { s with dsymlen := s.work.e }

/-- One engine step of DECODE. -/
def decodeStep (s : State) : State :=
  match s.phase with
  | .dClr => phaseDClr s
  | .dLmax => phaseDLmax s
  | .dBit => phaseDBit s
  | .dEnd => phaseDEnd s
  | _ => s

/-- DECODE (R240); at most `3 + K_MAX + BITLEN` steps after dispatch (R146). -/
def execDecode (s : State) : Host.Outcome State Fault Refusal :=
  commandOutcome (runToIdle decodeStep (3 + Config.kMax + s.bitlen.toNat) (dispatchTo 5 0 .dClr s))

end Sys2Proof.Machine
end

