-- ==== Sys2Proof/Machine/Derive.lean ====
section
/-! DEFINITION. DERIVE, the codebook derivation engine (43_derive_codebook.md rules R200 to R206). -/

namespace Sys2Proof.Machine

/-- `STK[c]` (R46). -/
def stkAt (w : Work) (c : Nat) : StkEntry := Store.read StkEntry.zero w.stk c

/-- `push(n, d, p)` (R203). -/
def stkPush (n : NodeIdx) (d : CodeLen) (p : CodeVec) (w : Work) : Work :=
  { w with stk := Store.put Config.kMax StkEntry.zero w.stk w.sp ⟨n, d, p⟩, sp := w.sp + 1 }

/-- `pop()` (R203): the entry returned, and the stack without it. -/
def stkPop (w : Work) : StkEntry × Work := (stkAt w (w.sp - 1), { w with sp := w.sp - 1 })

/-- A codebook entry that maps to the first `d` bits of `p` (R41). -/
def codeEntry (d : CodeLen) (p : CodeVec) : CodeEntry := { valid := true, len := d, code := p }

/-- Phase C_CLR (R201): a fresh, empty codebook. -/
def phaseCClr (s : State) : State :=
  let s' := emptyArtifact .cb s
  { s' with work := { s'.work with sp := 0 }, phase := .cCheck }

/-- Phase C_CHECK (R202): is there a tree. -/
def phaseCCheck (s : State) : State :=
  if s.treeValid then { s with phase := .cRoot } else raiseFault (some .cb) .invalidInput 0 0 0 s

/-- Phase C_ROOT (R203): the code word "0" for a single leaf (R205), else the root is pushed. -/
def phaseCRoot (s : State) : State :=
  let r := nodeAt s.mem s.root.toNat
  if r.leaf then completeCommand { s with mem := setCb s.mem r.sym (codeEntry 1 0) }
  else { s with work := stkPush s.root 0 0 s.work, phase := .cWalk }

/-- Phase C_WALK (R203): one stack entry popped; a leaf is written, an internal node's children are
pushed, the right one first. Left is 0 and right is 1 (R204). -/
def phaseCWalk (s : State) : State :=
  let (⟨n, d, p⟩, w) := stkPop s.work
  let r := nodeAt s.mem n.toNat
  let s' : State :=
    if r.leaf then { s with mem := setCb s.mem r.sym (codeEntry d p), work := w }
    else
      { s with
        work := stkPush r.left (d + 1) (setSeqBit p d.toNat false) (stkPush r.right (d + 1) (setSeqBit p d.toNat true) w) }
  if s'.work.sp = 0 then completeCommand s' else { s' with phase := .cWalk }

/-- One engine step of DERIVE. -/
def deriveStep (s : State) : State :=
  match s.phase with
  | .cClr => phaseCClr s
  | .cCheck => phaseCCheck s
  | .cRoot => phaseCRoot s
  | .cWalk => phaseCWalk s
  | _ => s

/-- DERIVE (R200); at most `2 + 2k` steps after dispatch, `k` being at most `K_MAX` (R146). -/
def execDerive (s : State) : Host.Outcome State Fault Refusal :=
  commandOutcome (runToIdle deriveStep (2 + 2 * Config.kMax) (dispatchTo 3 0 .cClr s))

end Sys2Proof.Machine
end

