-- ==== Sys2Proof/Machine/Encoder.lean ====
section
/-! DEFINITION. ENCODE, the variable-length encoder (44_encode.md rules R220 to R226). -/

namespace Sys2Proof.Machine

/-- Phase E_CLR (R222). -/
def phaseEClr (s : State) : State :=
  let s' := emptyArtifact .bit s
  { s' with work := { s'.work with j := 0, t := 0 }, phase := .eSym }

/-- Phase E_SYM (R222): one symbol's code word appended; MissingCode before CapacityExceeded (R226). The sum is
compared with M_MAX before it is narrowed to the width of `t`. -/
def phaseESym (s : State) : State :=
  if s.work.j = s.symlen then { s with phase := .eFin }
  else
    let x := symAt s.mem s.work.j.toNat
    let c := cbAt s.mem x
    if !c.valid then raiseFault (some .bit) .missingCode 0 x (s.work.j.setWidth 16) s
    else if Config.mMax < s.work.t.toNat + c.len.toNat then
      raiseFault (some .bit) .capacityExceeded 1 x (s.work.j.setWidth 16) s
    else
      { s with
        mem := putBits s.mem s.work.t.toNat c.code c.len.toNat
        work := { s.work with t := s.work.t + c.len.setWidth 16, j := s.work.j + 1 }
        phase := .eSym }

/-- Phase E_FIN (R222). -/
def phaseEFin (s : State) : State := completeCommand { s with bitlen := s.work.t }

/-- One engine step of ENCODE. -/
def encodeStep (s : State) : State :=
  match s.phase with
  | .eClr => phaseEClr s
  | .eSym => phaseESym s
  | .eFin => phaseEFin s
  | _ => s

/-- ENCODE (R220); at most `3 + SYMLEN` steps after dispatch (R146). -/
def execEncode (s : State) : Host.Outcome State Fault Refusal :=
  commandOutcome (runToIdle encodeStep (3 + s.symlen.toNat) (dispatchTo 4 0 .eClr s))

end Sys2Proof.Machine
end

