-- ==== Sys2Proof/Machine/System.lean ====
section
/-! DEFINITION. The housekeeping commands NOP and CLEAR (40_command_framework.md rules R139 and R140). -/

namespace Sys2Proof.Machine

/-- Phase N_RUN (R139). -/
def phaseNRun (s : State) : State := completeCommand s

/-- Phase X_CLR (R140): the artifacts the latched mask selects are emptied. -/
def phaseXClr (s : State) : State :=
  completeCommand <|
    emptySelected s.opmask .dsym <| emptySelected s.opmask .bit <| emptySelected s.opmask .sym <|
    emptySelected s.opmask .cb <| emptySelected s.opmask .tree <| emptySelected s.opmask .freq s

/-- One engine step of NOP or CLEAR. -/
def systemStep (s : State) : State :=
  match s.phase with
  | .nRun => phaseNRun s
  | .xClr => phaseXClr s
  | _ => s

/-- NOP (R139). -/
def execNop (s : State) : Host.Outcome State Fault Refusal :=
  commandOutcome (runToIdle systemStep 1 (dispatchTo 0 0 .nRun s))

/-- CLEAR (R140). -/
def execClear (mask : BitVec 6) (s : State) : Host.Outcome State Fault Refusal :=
  commandOutcome (runToIdle systemStep 1 (dispatchTo 6 mask .xClr s))

end Sys2Proof.Machine
end

