-- ==== Sys2Proof/WellFormed.lean ====
section
/-! DEFINITION. Which field tuples are commands (30_encoding.md rules R101, R105 and R106). Every term of
`Instr` is well-formed by its type: all 64 masks of CLEAR are legal (R103) and no other command has an
operand, so the checks stand on the raw fields, where an ill-formed term exists. -/

namespace Sys2Proof

/-- Z0 and Z1 are zero (R105 clause 1). -/
def CmdFields.reservedClear (f : CmdFields) : Bool := f.z1 == 0 && f.z0 == 0

/-- OP is one of the seven opcodes (R105 clause 2). -/
def CmdFields.opcodeKnown (f : CmdFields) : Bool := decide (f.op.toNat < 7)

/-- MASK is zero unless the command is CLEAR (R105 clause 3). -/
def CmdFields.maskAllowed (f : CmdFields) : Bool := f.op == 6 || f.mask == 0

/-- The fields are those of a command. -/
def CmdFields.wf (f : CmdFields) : Bool := f.reservedClear && f.opcodeKnown && f.maskAllowed

/-- The fields that stand for a command (R104). -/
def Instr.fields : Instr → CmdFields
  | .nop => ⟨0, 0, 0, 0⟩
  | .analyze => ⟨1, 0, 0, 0⟩
  | .build => ⟨2, 0, 0, 0⟩
  | .derive => ⟨3, 0, 0, 0⟩
  | .encode => ⟨4, 0, 0, 0⟩
  | .decode => ⟨5, 0, 0, 0⟩
  | .clear mask => ⟨6, 0, mask, 0⟩

/-- A command is well-formed when its fields are. -/
def Instr.wf (i : Instr) : Bool := i.fields.wf

end Sys2Proof
end

