-- ==== Sys2Proof/Decode.lean ====
section
/-! DEFINITION. Decoding a command word (30_encoding.md rule R105), the encoder (R101, R104), and the
table's match and mask (R104, R114). A command is one 32-bit word, the data of a write to CMD (R100);
it is not fetched from memory and has no bytes (R66, R84). -/

namespace Sys2Proof

/-- Why a word is no command; all of them end in fault IllegalCommand (R106). -/
inductive Illegal where
  /-- Z0 or Z1 is not zero (R105 clause 1) -/
  | reservedBits
  /-- OP is 7 to 15 (R105 clause 2) -/
  | unknownOpcode
  /-- MASK is not zero and OP is not CLEAR's (R105 clause 3) -/
  | strayMask
deriving DecidableEq, Repr

/-- OP, Z0, MASK and Z1 of a word (R101). -/
def fieldsOf (w : Word) : CmdFields :=
  { op := w.extractLsb' 0 4, z0 := w.extractLsb' 4 4, mask := w.extractLsb' 8 6, z1 := w.extractLsb' 14 18 }

/-- The command an opcode and a mask stand for once the checks are passed (R104, R105 clause 4). -/
def selectCommand (op : BitVec 4) (mask : BitVec 6) : Except Illegal Instr :=
  match op.toNat with
  | 0 => .ok .nop
  | 1 => .ok .analyze
  | 2 => .ok .build
  | 3 => .ok .derive
  | 4 => .ok .encode
  | 5 => .ok .decode
  | 6 => .ok (.clear mask)
  | _ => .error .unknownOpcode

/-- Decoding a command word, in the order of rule R105. -/
def decode (w : Word) : Except Illegal Instr :=
  let f := fieldsOf w
  if f.z1 ≠ 0 ∨ f.z0 ≠ 0 then .error .reservedBits
  else if 7 ≤ f.op.toNat then .error .unknownOpcode
  else if f.op ≠ 6 ∧ f.mask ≠ 0 then .error .strayMask
  else selectCommand f.op f.mask

/-- The opcode of a command (R104). -/
def opcodeOf : Instr → BitVec 4
  | .nop => 0
  | .analyze => 1
  | .build => 2
  | .derive => 3
  | .encode => 4
  | .decode => 5
  | .clear _ => 6

/-- The MASK field of a command (R103): zero but for CLEAR. -/
def maskOf : Instr → BitVec 6
  | .clear mask => mask
  | _ => 0

/-- The command word of a command: `{Z1 = 0, MASK, Z0 = 0, OP}` (R101). -/
def encode (i : Instr) : Word :=
  (0#18 ++ maskOf i ++ 0#4 ++ opcodeOf i : BitVec 32)

/-- The mask column of rule R104: the bits of a word that select a command's row. -/
def tableMask : Instr → Word
  | .clear _ => 0xFFFFC0FF#32
  | _ => 0xFFFFFFFF#32

/-- The match column of rule R104: `w` selects the row of `i` when `w &&& tableMask i = tableMatch i`. -/
def tableMatch : Instr → Word
  | .nop => 0x00000000#32
  | .analyze => 0x00000001#32
  | .build => 0x00000002#32
  | .derive => 0x00000003#32
  | .encode => 0x00000004#32
  | .decode => 0x00000005#32
  | .clear _ => 0x00000006#32

/-- A word laid out from the opcode table's numbering of its bits: the table gives every row 32 bits,
and the bits of a shorter row would be zero above it. -/
def wordOfTable (nbits w : Nat) : Word := BitVec.ofNat 32 (w % 2 ^ nbits)

/-- What the decoder reads from a table row's bits. -/
def decodeTableWord (nbits w : Nat) : Option Instr :=
  match decode (wordOfTable nbits w) with
  | .ok i => some i
  | .error _ => none

end Sys2Proof
end

