-- ==== Sys2Proof/Machine/Engine.lean ====
section
/-! DEFINITION. One engine step, the block labelled with the current phase (40_command_framework.md rules
R133, R135 and R136). -/

namespace Sys2Proof.Machine

/-- The first phase of a command (R133). -/
def firstPhase : Instr → Phase
  | .nop => .nRun
  | .analyze => .aClr
  | .build => .bClr
  | .derive => .cClr
  | .encode => .eClr
  | .decode => .dClr
  | .clear _ => .xClr

/-- The end of a word that is no command (R276): it has no destination. -/
def raiseIllegal (s : State) : State := raiseFault none .illegalCommand 0 0 0 s

/-- Phase DISPATCH (R133). -/
def phaseDispatch (s : State) : State :=
  match decode s.cmd with
  | .ok i => dispatchTo (opcodeOf i) (maskOf i) (firstPhase i) s
  | .error _ => raiseIllegal s

/-- One engine step (R136); the idle engine has none (R131). -/
def engineStep (s : State) : State :=
  match s.phase with
  | .idle => s
  | .dispatch => phaseDispatch s
  | .nRun | .xClr => systemStep s
  | .aClr | .aCount => analyzeStep s
  | .bClr | .bScan | .bCheck | .bMerge | .bRoot => buildStep s
  | .cClr | .cCheck | .cRoot | .cWalk => deriveStep s
  | .eClr | .eSym | .eFin => encodeStep s
  | .dClr | .dLmax | .dBit | .dEnd => decodeStep s

end Sys2Proof.Machine
end

