-- ==== Sys2Proof/Machine/Window.lean ====
section
/-! DEFINITION. The host's side of the block: the window's address map, the access rules and the two
transactions (20_memory.md rules R60 to R86; registers in 10_state.md rules R30 to R37). -/

namespace Sys2Proof.Machine

/-- The four words of a node record (R75). -/
inductive NodeWord where
  | wlo | whi | child | info
deriving DecidableEq, Repr

/-- What a mapped offset names (R62, R63). -/
inductive Loc where
  | id | param0 | param1 | ctrl | cmd | status | errinfo | errlog
  | symlen | bitlen | dsymlen | root | nnodes | nleaves
  | freq (s : Symbol)
  | bitbuf (w : Nat)
  | node (n : Nat) (f : NodeWord)
  | cbCtl (s : Symbol)
  | cbCode (s : Symbol) (w : Nat)
  | symbuf (j : Nat)
  | dsym (j : Nat)
deriving DecidableEq, Repr

/-- The registers by word number (R63). -/
def regLoc : Nat → Option Loc
  | 0 => some .id
  | 1 => some .param0
  | 2 => some .param1
  | 3 => some .ctrl
  | 4 => some .cmd
  | 5 => some .status
  | 6 => some .errinfo
  | 7 => some .errlog
  | 8 => some .symlen
  | 9 => some .bitlen
  | 10 => some .dsymlen
  | 11 => some .root
  | 12 => some .nnodes
  | 13 => some .nleaves
  | _ => none

/-- The words of a node record by number (R75). -/
def nodeWordOf : Nat → NodeWord
  | 0 => .wlo
  | 1 => .whi
  | 2 => .child
  | _ => .info

/-- The words of a codebook entry by number; words 9 to 15 are holes (R76, R86). -/
def cbLoc (s : Symbol) : Nat → Option Loc
  | 0 => some (.cbCtl s)
  | w + 1 => if w < 8 then some (.cbCode s w) else none

/-- The address map by word number of the window, `off / 4` (R62, R86). -/
def locOfWord (a : Nat) : Option Loc :=
  if a < 0x100 then regLoc a
  else if a < 0x200 then some (.freq (BitVec.ofNat 8 (a - 0x100)))
  else if a < 0x400 then none
  else if a < 0x800 then some (.bitbuf (a - 0x400))
  else if a < 0xFFC then some (.node ((a - 0x800) / 4) (nodeWordOf ((a - 0x800) % 4)))
  else if a < 0x1000 then none
  else if a < 0x2000 then cbLoc (BitVec.ofNat 8 ((a - 0x1000) / 16)) ((a - 0x1000) % 16)
  else if a < 0x3000 then some (.symbuf (a - 0x2000))
  else some (.dsym (a - 0x3000))

/-- What a transaction addresses; none where its size, alignment or offset is wrong (R64 causes 1, 2). -/
def target (size : Nat) (off : Offset) : Option Loc :=
  if size = 4 ∧ off.toNat % 4 = 0 then locOfWord (off.toNat / 4) else none

/-- The stored value of a location (the read columns of 10_state.md and R72 to R78). -/
def readLoc (l : Loc) (s : State) : Word :=
  match l with
  | .id => Config.idWord
  | .param0 => Config.param0Word
  | .param1 => Config.param1Word
  | .ctrl => (0#31 ++ BitVec.ofBool s.ie : BitVec 32)
  | .cmd => s.cmd
  | .status => statusWord s
  | .errinfo => s.errinfo
  | .errlog => s.errlog
  | .symlen => s.symlen.setWidth 32
  | .bitlen => s.bitlen.setWidth 32
  | .dsymlen => s.dsymlen.setWidth 32
  | .root => s.root.setWidth 32
  | .nnodes => s.nnodes.setWidth 32
  | .nleaves => s.nleaves.setWidth 32
  | .freq x => freqAt s.mem x
  | .bitbuf w => bitWordAt s.mem w
  | .node n .wlo => wloWord (nodeAt s.mem n)
  | .node n .whi => whiWord (nodeAt s.mem n)
  | .node n .child => childWord (nodeAt s.mem n)
  | .node n .info => infoWord (nodeAt s.mem n)
  | .cbCtl x => ctlWord (cbAt s.mem x)
  | .cbCode x w => codeWord (cbAt s.mem x).code w
  | .symbuf j => (symAt s.mem j).setWidth 32
  | .dsym j => (dsymAt s.mem j).setWidth 32

/-- The host may write it (R67). -/
def writable : Loc → Bool
  | .id | .param0 | .param1 | .errinfo | .dsymlen | .root | .nnodes | .nleaves => false
  | .node _ _ | .dsym _ => false
  | .ctrl | .cmd | .status | .errlog | .symlen | .bitlen => true
  | .freq _ | .bitbuf _ | .cbCtl _ | .cbCode _ _ | .symbuf _ => true

/-- A read of it succeeds while BUSY (R68). -/
def readableBusy : Loc → Bool
  | .id | .param0 | .param1 | .ctrl | .status => true
  | _ => false

/-- A write of it may succeed while BUSY (R68). -/
def writableBusy : Loc → Bool
  | .ctrl | .status => true
  | _ => false

/-- The bits a write may set (R63, R69). -/
def definedBits : Loc → Word
  | .ctrl => 0x80000001#32
  | .status => 0x00000002#32
  | .errlog => 0x0000003E#32
  | .symlen => 0x00001FFF#32
  | .bitlen => 0x0000FFFF#32
  | .cbCtl _ => 0x800000FF#32
  | .cbCode _ w => if w = 7 then 0xFFFFFFFE#32 else 0xFFFFFFFF#32
  | .symbuf _ => 0x000000FF#32
  | .cmd | .freq _ | .bitbuf _ => 0xFFFFFFFF#32
  | _ => 0

/-- The data is in range: the length registers (R79), and a valid entry's length is not zero (R77). -/
def inRange (l : Loc) (v : Word) : Bool :=
  match l with
  | .symlen => decide (v.toNat ≤ Config.nMax)
  | .bitlen => decide (v.toNat ≤ Config.mMax)
  | .cbCtl _ => !(v.getLsbD 31 && v.extractLsb' 0 8 == 0)
  | _ => true

/-- The effect of a write that succeeds (R70). -/
def writeLoc (l : Loc) (v : Word) (s : State) : State :=
  match l with
  | .ctrl => if v.getLsbD 31 then hardReset s else { s with ie := v.getLsbD 0 }
  | .cmd => acceptCommand v s
  | .status => { s with done := ackDone s.done v }
  | .errlog => { s with errlog := ackErrlog s.errlog v }
  | .symlen => { s with symlen := v.setWidth 13 }
  | .bitlen => { s with bitlen := v.setWidth 16 }
  | .freq x => { s with mem := setFreq s.mem x v }
  | .bitbuf w => { s with mem := setBitWord s.mem w v }
  | .cbCtl x =>
    { s with mem := setCb s.mem x { cbAt s.mem x with valid := v.getLsbD 31, len := v.extractLsb' 0 8 } }
  | .cbCode x w =>
    { s with mem := setCb s.mem x { cbAt s.mem x with code := setCodeWord (cbAt s.mem x).code w v } }
  | .symbuf j => { s with mem := setSym s.mem j (v.extractLsb' 0 8) }
  | .id | .param0 | .param1 | .errinfo | .dsymlen | .root | .nnodes | .nleaves => s
  | .node _ _ | .dsym _ => s

/-- `MemRead(off, size)` (R60): the value, or none for AccessError (R64). -/
def memRead (size : Nat) (off : Offset) (s : State) : Option Word :=
  match target size off with
  | none => none
  | some l => if s.busy && !readableBusy l then none else some (readLoc l s)

/-- `MemWrite(off, size, v)` (R61): the state after it, or none for AccessError (R64). -/
def memWrite (size : Nat) (off : Offset) (v : Word) (s : State) : Option State :=
  match target size off with
  | none => none
  | some l =>
    if !writable l then none
    else if s.busy && !writableBusy l then none
    else if v &&& ~~~definedBits l ≠ 0 then none
    else if !inRange l v then none
    else some (writeLoc l v s)

/-- What a read returns (R60). -/
def readResponse (size : Nat) (off : Offset) (s : State) : Response :=
  match memRead size off s with
  | some v => .value v
  | none => .accessError

/-- Serving an action of the host (R130); what a transaction returns stands in `response` (log 3). -/
def serveHost (a : HostAction) (s : State) : State :=
  match a with
  | .read size off => { s with response := some (readResponse size off s) }
  | .write size off v =>
    match memWrite size off v s with
    | some s' => { s' with response := some .ok }
    | none => { s with response := some .accessError }
  | .hardReset => hardReset s

end Sys2Proof.Machine
end

