-- ==== Sys2Proof/Machine/Run.lean ====
section
/-! DEFINITION. What moves next: the host, the engine by one step, or the engine by a whole command
(40_command_framework.md rules R136 and R138). -/

namespace Sys2Proof.Machine

/-- The engine runs: an accepted command from its dispatch to its completion in one step (R138, log 2), a
command already under way by one engine step (log 13), nothing when idle (R131, log 5). -/
def engineRun (s : State) : Host.Outcome State Fault Refusal :=
  match s.phase with
  | .idle => .next s
  | .dispatch =>
    match decode s.cmd with
    | .ok i => exec i s
    | .error _ => .next (raiseIllegal s)
  | _ => .next (engineStep s)

/-- The next event of the schedule; with none left the engine runs (log 3). -/
def nextEvent (s : State) : Host.Outcome State Fault Refusal :=
  match s.schedule with
  | [] => engineRun s
  | .host a :: rest => .next (serveHost a { s with schedule := rest })
  | .engineStep :: rest => .next (engineStep { s with schedule := rest })
  | .engineRun :: rest => engineRun { s with schedule := rest }

/-- A command word taken up next: the state after the host's write of it to CMD was accepted (R132), with
nothing scheduled before it runs (log 4). -/
def takeUp (w : Word) (s : State) : State := { acceptCommand w s with schedule := [] }

end Sys2Proof.Machine
end

