-- ==== Sys2Proof/Machine/Step.lean ====
section
/-! DEFINITION. One step of the block and its host, and the state whose next step runs a given command
word. -/

namespace Sys2Proof.Machine

/-- One step: the next event of the schedule (Run.lean). -/
def step (s : State) : Host.Outcome State Fault Refusal := nextEvent s

/-- `s` with a table row's word accepted in CMD (log 4). -/
def State.withFetchWord (s : State) (nbits w : Nat) : State := takeUp (wordOfTable nbits w) s

end Sys2Proof.Machine
end

