-- ==== Sys2Proof/Safety.lean ====
section
/-! DEFINITION. The terms the claims use: what an artifact holds, how a command starts and ends, the
invariants of the block (10_state.md rule R52), the reference readings of the result rules (R160, R170,
R200, R220, R240) over lists and sets, and the access rules by offset (R62 to R79). -/

namespace Sys2Proof.Machine

/-! ## Artifacts (R12, R137) -/

/-- The two states hold the same artifact, element by element. -/
def SameArtifact (a : Artifact) (s t : State) : Prop :=
  match a with
  | .freq => ∀ x, freqAt t.mem x = freqAt s.mem x
  | .tree =>
    (∀ n, nodeAt t.mem n = nodeAt s.mem n) ∧ t.root = s.root ∧ t.nnodes = s.nnodes ∧ t.nleaves = s.nleaves ∧
      t.treeValid = s.treeValid
  | .cb => ∀ x, cbAt t.mem x = cbAt s.mem x
  | .sym => (∀ j, symAt t.mem j = symAt s.mem j) ∧ t.symlen = s.symlen
  | .bit => (∀ w, bitWordAt t.mem w = bitWordAt s.mem w) ∧ t.bitlen = s.bitlen
  | .dsym => (∀ e, dsymAt t.mem e = dsymAt s.mem e) ∧ t.dsymlen = s.dsymlen

/-- The artifact is empty: every element 0, its registers 0, its valid flag 0 (R137). -/
def ArtifactEmpty (a : Artifact) (s : State) : Prop :=
  match a with
  | .freq => ∀ x, freqAt s.mem x = 0
  | .tree =>
    (∀ n, nodeAt s.mem n = NodeRec.zero) ∧ s.root = 0 ∧ s.nnodes = 0 ∧ s.nleaves = 0 ∧ s.treeValid = false
  | .cb => ∀ x, cbAt s.mem x = CodeEntry.zero
  | .sym => (∀ j, symAt s.mem j = 0) ∧ s.symlen = 0
  | .bit => (∀ w, bitWordAt s.mem w = 0) ∧ s.bitlen = 0
  | .dsym => (∀ e, dsymAt s.mem e = 0) ∧ s.dsymlen = 0

/-- Everything but the listed artifacts, the flags, the fault report and the hidden state is as before:
the other artifacts element by element, CTRL, CMD, and the model's own fields. -/
def Untouched (dest : List Artifact) (s t : State) : Prop :=
  (∀ a, a ∉ dest → SameArtifact a s t) ∧ t.ie = s.ie ∧ t.cmd = s.cmd ∧ t.schedule = s.schedule ∧
    t.response = s.response

/-- The artifacts a mask selects (R103). -/
def selected (mask : BitVec 6) : List Artifact := [.freq, .tree, .cb, .sym, .bit, .dsym].filter (selects mask)

/-- The destination of a command (R137). -/
def destOf : Instr → List Artifact
  | .nop => []
  | .analyze => [.freq]
  | .build => [.tree]
  | .derive => [.cb]
  | .encode => [.bit]
  | .decode => [.dsym]
  | .clear mask => selected mask

/-- The sources of a command (R137). -/
def sourcesOf : Instr → List Artifact
  | .nop | .clear _ => []
  | .analyze => [.sym]
  | .build => [.freq]
  | .derive => [.tree]
  | .encode => [.sym, .cb]
  | .decode => [.bit, .cb]

/-- What the running command's next engine step may write (R137): its destination; nothing in DISPATCH. -/
def phaseDest (s : State) : List Artifact :=
  match s.phase with
  | .idle | .dispatch | .nRun => []
  | .xClr => selected s.opmask
  | .aClr | .aCount => [.freq]
  | .bClr | .bScan | .bCheck | .bMerge | .bRoot => [.tree]
  | .cClr | .cCheck | .cRoot | .cWalk => [.cb]
  | .eClr | .eSym | .eFin => [.bit]
  | .dClr | .dLmax | .dBit | .dEnd => [.dsym]

/-! ## The life of a command -/

/-- A command is accepted and has not been dispatched: what R132 leaves. -/
abbrev Accepted (i : Instr) (s : State) : Prop :=
  s.cmd = encode i ∧ s.busy = true ∧ s.done = false ∧ s.err = 0 ∧ s.errinfo = 0 ∧ s.phase = .dispatch

/-- `t` is a completion of `s` without fault (R134). -/
abbrev Completed (s t : State) : Prop :=
  t.phase = .idle ∧ t.busy = false ∧ t.done = true ∧ t.err = 0 ∧ t.errinfo = 0 ∧ t.errlog = s.errlog

/-- `t` is the end of `s` with a fault (R278, but for the destination). -/
abbrev Faulted (f : CmdFault) (sub : BitVec 4) (x : Symbol) (idx : Nat) (s t : State) : Prop :=
  t.phase = .idle ∧ t.busy = false ∧ t.done = true ∧ t.err = faultCode f ∧
    t.errinfo = packErrinfo (s.cmd.extractLsb' 0 4) sub x (BitVec.ofNat 16 idx) ∧
    t.errlog = s.errlog ||| (1#32 <<< (faultCode f).toNat)

/-- A command run from an idle block: accepted (R132), then run to its end. -/
def runCommand (i : Instr) (s : State) : Host.Outcome State Fault Refusal := exec i (acceptCommand (encode i) s)

/-- The phases that may follow a phase (R135). -/
def nextPhases : Phase → List Phase
  | .idle => [.dispatch]
  | .dispatch => [.nRun, .xClr, .aClr, .bClr, .cClr, .eClr, .dClr, .idle]
  | .nRun => [.idle]
  | .xClr => [.idle]
  | .aClr => [.aCount]
  | .aCount => [.aCount, .idle]
  | .bClr => [.bScan]
  | .bScan => [.bScan, .bCheck]
  | .bCheck => [.bMerge, .idle]
  | .bMerge => [.bMerge, .bRoot]
  | .bRoot => [.idle]
  | .cClr => [.cCheck]
  | .cCheck => [.cRoot, .idle]
  | .cRoot => [.cWalk, .idle]
  | .cWalk => [.cWalk, .idle]
  | .eClr => [.eSym]
  | .eSym => [.eSym, .eFin, .idle]
  | .eFin => [.idle]
  | .dClr => [.dLmax]
  | .dLmax => [.dLmax, .dBit]
  | .dBit => [.dBit, .dEnd, .idle]
  | .dEnd => [.idle]

/-- The phases a command runs through after DISPATCH (R135). -/
def phasesOf : Instr → List Phase
  | .nop => [.nRun]
  | .analyze => [.aClr, .aCount]
  | .build => [.bClr, .bScan, .bCheck, .bMerge, .bRoot]
  | .derive => [.cClr, .cCheck, .cRoot, .cWalk]
  | .encode => [.eClr, .eSym, .eFin]
  | .decode => [.dClr, .dLmax, .dBit, .dEnd]
  | .clear _ => [.xClr]

/-! ## Reference readings of the result rules -/

/-- The symbols of a frequency table, ascending (R170). -/
def presentSymbols (m : Memory) : List Symbol := allSymbols.filter fun x => freqAt m x ≠ 0

/-- The input sequence (R22). -/
def inputSymbols (s : State) : List Symbol := (List.range s.symlen.toNat).map (symAt s.mem)

/-- The encoded stream (R23). -/
def streamBits (s : State) : List Bool := (List.range s.bitlen.toNat).map (bitAt s.mem)

/-- The decoded output (R25). -/
def outputSymbols (s : State) : List Symbol := (List.range s.dsymlen.toNat).map (dsymAt s.mem)

/-- `word(s)`, the code word of an entry (R220). -/
def codeBits (c : CodeEntry) : List Bool := (List.range c.len.toNat).map (seqBit c.code)

/-- The code words of a sequence of symbols, one after the other (R220). -/
def encodeList (m : Memory) (xs : List Symbol) : List Bool := xs.flatMap fun x => codeBits (cbAt m x)

/-- An entry maps to a bit sequence and its bits beyond the length are 0 (R41, R200). -/
def HoldsCode (c : CodeEntry) (q : List Bool) : Prop :=
  c.valid = true ∧ c.len.toNat = q.length ∧ ∀ b, b < Config.codeMax → seqBit c.code b = q.getD b false

/-- No code word of the codebook begins another, equality included (R209, R251). -/
def PrefixFree (m : Memory) : Prop :=
  ∀ x y, x ≠ y → (cbAt m x).valid = true → (cbAt m y).valid = true →
    ¬ (codeBits (cbAt m x) <+: codeBits (cbAt m y))

/-- Every symbol has a valid entry (R220). -/
def Covered (m : Memory) (xs : List Symbol) : Prop := ∀ x ∈ xs, (cbAt m x).valid = true

/-- The record of index `n` in a list of records; all-zero past its end (R40). -/
def recAt (rs : List NodeRec) (n : Nat) : NodeRec := rs.getD n NodeRec.zero

/-- `(weight, index)` of `a` is less than that of `b` (R173). -/
def recLess (rs : List NodeRec) (a b : Nat) : Bool :=
  decide ((recAt rs a).weight < (recAt rs b).weight ∨ ((recAt rs a).weight = (recAt rs b).weight ∧ a < b))

/-- The element of a queue with the least key (R171). -/
def leastKey (rs : List NodeRec) : List Nat → Nat
  | [] => 0
  | [n] => n
  | n :: q => if recLess rs n (leastKey rs q) then n else leastKey rs q

/-- `merges` merges of the document's algorithm over a set of indices (R170): the two least leave the
queue, the first as the left child, and the new record joins it. -/
def mergeLeast : Nat → List NodeRec → List Nat → List NodeRec
  | 0, rs, _ => rs
  | merges + 1, rs, q =>
    let l := leastKey rs q
    let q1 := q.erase l
    let r := leastKey rs q1
    let q2 := q1.erase r
    mergeLeast merges
      (rs ++ [internalRec ((recAt rs l).weight + (recAt rs r).weight) (BitVec.ofNat 9 l) (BitVec.ofNat 9 r)])
      (q2 ++ [rs.length])

/-- The tree of a frequency table by rule R170: the leaves in ascending ordinal, then the merges. -/
def referenceTree (m : Memory) : List NodeRec :=
  let leaves := (presentSymbols m).map fun x => leafRec x (freqAt m x)
  mergeLeast (leaves.length - 1) leaves (List.range leaves.length)

/-- The child a branch label leads to: left is 0, right is 1 (R204). -/
def childOf (r : NodeRec) (b : Bool) : Nat := if b then r.right.toNat else r.left.toNat

/-- The node a path of branch labels leads to (R200, R204); none once the path would leave a leaf. -/
def follow (m : Memory) : Nat → List Bool → Option Nat
  | n, [] => some n
  | n, b :: q => if (nodeAt m n).leaf then none else follow m (childOf (nodeAt m n) b) q

/-- `n` is the leaf of symbol `x` that the path `q` from ROOT leads to (R200). -/
def LeafAt (s : State) (q : List Bool) (n : Nat) : Prop :=
  follow s.mem s.root.toNat q = some n ∧ (nodeAt s.mem n).leaf = true

/-- The outcome of decoding a stream (R240). -/
inductive DecodeResult where
  | symbols (xs : List Symbol)
  | fault (f : CmdFault) (sub : BitVec 4) (x : Symbol) (idx : Nat)
deriving DecidableEq, Repr

/-- The symbols whose code word is the candidate, ascending (R244). -/
def codeMatches (m : Memory) (cand : List Bool) : List Symbol :=
  allSymbols.filter fun x => (cbAt m x).valid && codeBits (cbAt m x) == cand

/-- The longest code word in the codebook, 0 if it is empty (R242). -/
def longestCode (m : Memory) : Nat :=
  (allSymbols.map fun x => if (cbAt m x).valid then (cbAt m x).len.toNat else 0).foldl max 0

/-- The document's scan (R240, R243 to R249, R252): `cand` is the candidate, `start` the position of its
first bit, `t` the position of the next bit, `out` what was emitted. -/
def scanStream (m : Memory) : List Bool → List Bool → Nat → Nat → List Symbol → DecodeResult
  | [], cand, start, _, out =>
    if cand = [] then .symbols out else .fault .corruptStream 1 0 start
  | b :: rest, cand, start, t, out =>
    let start' := if cand = [] then t else start
    if cand.length = longestCode m then .fault .corruptStream 2 0 start'
    else
      match codeMatches m (cand ++ [b]) with
      | [] => scanStream m rest (cand ++ [b]) start' (t + 1) out
      | [x] =>
        if out.length = Config.nMax then .fault .capacityExceeded 2 x start'
        else scanStream m rest [] start' (t + 1) (out ++ [x])
      | x :: _ :: _ => .fault .corruptStream 3 x start'

/-- What decoding the block's stream under its codebook gives. -/
def decodeReference (s : State) : DecodeResult := scanStream s.mem (streamBits s) [] 0 0 []

/-- The most engine steps a command takes from DISPATCH to completion (R146). -/
def stepBound (i : Instr) (s : State) : Nat :=
  match i with
  | .nop | .clear _ => 2
  | .analyze => 3 + s.symlen.toNat
  | .build =>
    if presentSymbols s.mem = [] then 3 + Config.kMax else 4 + Config.kMax + (presentSymbols s.mem).length
  | .derive => if s.treeValid then (if s.nleaves = 1 then 4 else 3 + 2 * s.nleaves.toNat) else 3
  | .encode => 4 + s.symlen.toNat
  | .decode => 4 + Config.kMax + s.bitlen.toNat

/-! ## The priority queue (R171, R175) -/

/-- The indices the queue holds. -/
def heapList (w : Work) : List NodeIdx := (List.range w.heapCnt).map (heapAt w.heap)

/-- The heap invariant (R175): a parent's key is less than its children's. -/
def HeapOrdered (m : Memory) (w : Work) : Prop :=
  ∀ c, 1 ≤ c → c < w.heapCnt → keyLt m (heapAt w.heap ((c - 1) / 2)) (heapAt w.heap c) = true

/-! ## Invariants -/

/-- Every array, hidden ones included, is in canonical form (log 1). -/
abbrev WellKept (s : State) : Prop :=
  s.mem.wf ∧ Store.WF Config.kMax (0 : NodeIdx) s.work.heap ∧ Store.WF Config.kMax StkEntry.zero s.work.stk

/-- There is no tree (R52 clause a). -/
abbrev NoTree (s : State) : Prop :=
  s.root = 0 ∧ s.nnodes = 0 ∧ s.nleaves = 0 ∧ ∀ n < Config.nodeMax, nodeAt s.mem n = NodeRec.zero

/-- A Leaf record (R40) with a non-zero weight. -/
abbrev IsLeafRec (r : NodeRec) : Prop :=
  r.used = true ∧ r.leaf = true ∧ r.left = 0 ∧ r.right = 0 ∧ r.weight ≠ 0

/-- The record at `n` is an Internal record over two earlier records (R40, R52). -/
abbrev IsInternalRec (m : Memory) (n : Nat) (r : NodeRec) : Prop :=
  r.used = true ∧ r.leaf = false ∧ r.sym = 0 ∧ r.left.toNat < n ∧ r.right.toNat < n ∧ r.left ≠ r.right ∧
    r.weight = (nodeAt m r.left.toNat).weight + (nodeAt m r.right.toNat).weight

/-- Every `left` and `right` field of the records in use that are Internal (R52). -/
def childLinks (s : State) : List Nat :=
  (List.range (s.nleaves.toNat - 1)).flatMap fun d =>
    [(nodeAt s.mem (s.nleaves.toNat + d)).left.toNat, (nodeAt s.mem (s.nleaves.toNat + d)).right.toNat]

/-- NODE holds a tree over `k = NLEAVES` leaves (R52 clause b). -/
abbrev TreeShape (s : State) : Prop :=
  1 ≤ s.nleaves.toNat ∧ s.nleaves.toNat ≤ Config.kMax ∧ s.nnodes.toNat = 2 * s.nleaves.toNat - 1 ∧
    s.root.toNat = 2 * s.nleaves.toNat - 2 ∧
    (∀ n < s.nleaves.toNat, IsLeafRec (nodeAt s.mem n)) ∧
    (∀ n < s.nleaves.toNat, ∀ p < n, (nodeAt s.mem p).sym < (nodeAt s.mem n).sym) ∧
    (∀ n < 2 * s.nleaves.toNat - 1, s.nleaves.toNat ≤ n → IsInternalRec s.mem n (nodeAt s.mem n)) ∧
    (∀ c < 2 * s.nleaves.toNat - 2, (childLinks s).count c = 1) ∧
    ∀ n < Config.nodeMax, 2 * s.nleaves.toNat - 1 ≤ n → nodeAt s.mem n = NodeRec.zero

/-- The length registers are in range (R52 clause d). -/
abbrev LengthsInRange (s : State) : Prop :=
  s.symlen.toNat ≤ Config.nMax ∧ s.bitlen.toNat ≤ Config.mMax ∧ s.dsymlen.toNat ≤ Config.nMax

/-- The artifacts of the idle block (R52). -/
abbrev ArtifactsSound (s : State) : Prop :=
  (s.treeValid = false → NoTree s) ∧ (s.treeValid = true → TreeShape s) ∧
    (∀ x, (cbAt s.mem x).valid = true → 1 ≤ (cbAt s.mem x).len.toNat) ∧ LengthsInRange s

/-- The cursors and counters are in the ranges rules R45, R47 and R48 give them, with what the running
phase needs to keep them there. -/
def CursorsInRange (s : State) : Prop :=
  s.work.i ≤ Config.kMax ∧ s.work.j.toNat ≤ Config.nMax ∧ s.work.t.toNat ≤ Config.mMax ∧
    s.work.e.toNat ≤ Config.nMax ∧ s.work.heapCnt ≤ Config.kMax ∧ s.work.clen.toNat ≤ Config.codeMax ∧
    s.work.lmax.toNat ≤ Config.codeMax ∧ s.work.cstart.toNat ≤ Config.mMax ∧ s.nnodes.toNat ≤ Config.nodeMax ∧ s.nleaves.toNat ≤ Config.kMax ∧
    match s.phase with
    | .aCount | .eSym => s.work.j ≤ s.symlen
    | .bScan => s.work.i < Config.kMax ∧ s.work.heapCnt = s.nnodes.toNat ∧ s.nnodes.toNat ≤ s.work.i
    | .bCheck => s.work.heapCnt = s.nnodes.toNat ∧ s.nnodes.toNat ≤ Config.kMax
    | .bMerge => 1 ≤ s.work.heapCnt ∧ s.nnodes.toNat + s.work.heapCnt = 2 * s.nleaves.toNat
    | .dLmax => s.work.i < Config.kMax ∧ s.work.clen = 0 ∧ s.work.t = 0
    | .dBit => s.work.t ≤ s.bitlen ∧ s.work.clen ≤ s.work.lmax
    | _ => True

/-- What every step of the block keeps: arrays canonical, BUSY exactly when the engine has a step (R24),
no completion or fault report while BUSY (R35), only defined bits in ERRLOG and fault codes in ERR (R37,
R271), lengths and cursors in range, and a running command that is the one CMD holds (R84, R133). -/
def BlockSound (s : State) : Prop :=
  WellKept s ∧ s.busy = !s.phase.isIdle ∧ (s.busy = true → s.done = false ∧ s.err = 0 ∧ s.errinfo = 0) ∧
    s.errlog &&& ~~~0x0000003E#32 = 0 ∧ s.err.toNat ≤ 5 ∧ LengthsInRange s ∧ CursorsInRange s ∧
    (s.phase ≠ .idle → s.phase ≠ .dispatch →
      ∃ i, decode s.cmd = .ok i ∧ s.phase ∈ phasesOf i ∧ s.op = opcodeOf i ∧ s.opmask = maskOf i)

/-! ## The access rules by offset (R62 to R69, R77, R79, R86) -/

/-- No location is at the offset (R62, R86). -/
abbrev Unmapped (off : Nat) : Prop :=
  (0x38 ≤ off ∧ off < 0x400) ∨ (0x800 ≤ off ∧ off < 0x1000) ∨ (0x3FF0 ≤ off ∧ off < 0x4000) ∨
    (0x4000 ≤ off ∧ off < 0x8000 ∧ 0x24 ≤ (off - 0x4000) % 64)

/-- The location at the offset is read-only to the host (R63, R67). -/
abbrev ReadOnlyOffset (off : Nat) : Prop :=
  off ∈ [0x0, 0x4, 0x8, 0x18, 0x28, 0x2C, 0x30, 0x34] ∨ (0x2000 ≤ off ∧ off < 0x3FF0) ∨ 0xC000 ≤ off

/-- A read at the offset succeeds while BUSY (R68). -/
abbrev BusyReadOffset (off : Nat) : Prop := off ∈ [0x0, 0x4, 0x8, 0xC, 0x14]

/-- A write at the offset may succeed while BUSY (R68). -/
abbrev BusyWriteOffset (off : Nat) : Prop := off ∈ [0xC, 0x14]

/-- The bits a write at a writable offset may set (R63, R69). -/
def definedMask (off : Nat) : Word :=
  if off = 0xC then 0x80000001#32
  else if off = 0x10 then 0xFFFFFFFF#32
  else if off = 0x14 then 0x00000002#32
  else if off = 0x1C then 0x0000003E#32
  else if off = 0x20 then 0x00001FFF#32
  else if off = 0x24 then 0x0000FFFF#32
  else if 0x4000 ≤ off ∧ off < 0x8000 then
    (if (off - 0x4000) % 64 = 0 then 0x800000FF#32
    else if (off - 0x4000) % 64 = 0x20 then 0xFFFFFFFE#32
    else 0xFFFFFFFF#32)
  else if 0x8000 ≤ off ∧ off < 0xC000 then 0x000000FF#32
  else 0xFFFFFFFF#32

/-- The data is out of range at the offset (R77, R79). -/
abbrev DataOutOfRange (off : Nat) (v : Word) : Prop :=
  (off = 0x20 ∧ 4096 < v.toNat) ∨ (off = 0x24 ∧ 32768 < v.toNat) ∨
    (0x4000 ≤ off ∧ off < 0x8000 ∧ (off - 0x4000) % 64 = 0 ∧ v.getLsbD 31 = true ∧ v.extractLsb' 0 8 = 0)

/-- A write at the offset stores its data and does nothing else (R70): FREQ, CB, SYMBUF, BITBUF, SYMLEN
and BITLEN. -/
abbrev PlainOffset (off : Nat) : Prop :=
  off = 0x20 ∨ off = 0x24 ∨ (0x400 ≤ off ∧ off < 0x800) ∨ (0x1000 ≤ off ∧ off < 0x2000) ∨
    (0x4000 ≤ off ∧ off < 0xC000)

/-- The host action resets the block if it is served (R300, R302). -/
def Resets : HostAction → Prop
  | .hardReset => True
  | .read _ _ => False
  | .write _ off v => off = 0xC ∧ v.getLsbD 31 = true

end Sys2Proof.Machine
end

