-- ==== Sys2Proof/Certificates/Slice0/Obligations.lean ====
section
/-! DEFINITION. The statements for the provers, from the numbered rules of spec/. -/

open Sys2Proof Sys2Proof.Machine

/-! ## Command words -/

/-- R104, R105: a word decodes to a command exactly when it is that command's word (so decoding undoes
encoding, all 64 masks of CLEAR included), and the word's fields are the command's, well-formed. -/
def Obligations.DecodeUndoesEncode : Prop :=
  ∀ i : Instr,
    (∀ w : Word, decode w = .ok i ↔ w = encode i) ∧ decode (encode i) = .ok i ∧ fieldsOf (encode i) = i.fields ∧
      i.wf = true

/-- R114: the decoder written from the table alone agrees with rule R105: a word decodes to a command of the
row it selects, and is rejected when it selects none. -/
def Obligations.DecoderAgreesWithTable : Prop :=
  ∀ w : Word,
    (∀ i, decode w = .ok i → w &&& tableMask i = tableMatch i) ∧
    ((∃ i, w &&& tableMask i = tableMatch i) → ∃ i, decode w = .ok i) ∧
    ∀ i j, w &&& tableMask i = tableMatch i → w &&& tableMask j = tableMatch j → opcodeOf i = opcodeOf j

/-- R105, R106: exactly the words with a non-zero reserved field, an opcode of 7 or more, or a mask on a
command that is not CLEAR are no commands; any other word is the command of its OP and MASK fields. -/
def Obligations.IllegalWordsAreRejected : Prop :=
  ∀ w : Word,
    ((∃ i, decode w = .ok i) ↔
      ¬ (w.extractLsb' 14 18 ≠ 0 ∨ w.extractLsb' 4 4 ≠ 0 ∨ 7 ≤ (w.extractLsb' 0 4).toNat ∨
        (w.extractLsb' 0 4 ≠ 6 ∧ w.extractLsb' 8 6 ≠ 0))) ∧
    ∀ i, decode w = .ok i → opcodeOf i = w.extractLsb' 0 4 ∧ maskOf i = w.extractLsb' 8 6

/-- R104, VC1 to VC15: words of 95_test_vectors.md decode as listed. -/
def Obligations.ListedWordsDecode : Prop :=
  decode 0x00000000#32 = .ok .nop ∧ decode 0x00000001#32 = .ok .analyze ∧ decode 0x00000002#32 = .ok .build ∧
    decode 0x00000003#32 = .ok .derive ∧ decode 0x00000004#32 = .ok .encode ∧
    decode 0x00000005#32 = .ok .decode ∧ decode 0x00000006#32 = .ok (.clear 0) ∧
    decode 0x00003F06#32 = .ok (.clear 0x3F#6) ∧ decode 0x00000206#32 = .ok (.clear 0x02#6) ∧
    (∀ w ∈ [0x00000007#32, 0x0000000F#32, 0x00000012#32, 0x00000101#32, 0x00004006#32, 0x80000000#32,
        0xFFFFFFFF#32],
      ∀ i, decode w ≠ .ok i)

/-! ## A step of the block -/

/-- R133, R138 with logs 2 and 3 (the one-step reading and the schedule are the model's): with an accepted
command word in CMD and the engine next, a step is the command's meaning; an `engineRun` event is taken off
the schedule first. -/
def Obligations.StepRunsTheAcceptedCommand : Prop :=
  ∀ (i : Instr) (s : State), s.phase = .dispatch → decode s.cmd = .ok i →
    (s.schedule = [] → step s = exec i s) ∧
    ∀ rest, s.schedule = .engineRun :: rest → step s = exec i { s with schedule := rest }

/-- R276, R278: the engine step that dispatches a word that is no command raises IllegalCommand: no artifact
is touched, and the word stays in CMD. -/
def Obligations.IllegalWordFaults : Prop :=
  ∀ (s : State) (e : Illegal), s.phase = .dispatch → decode s.cmd = .error e →
    engineStep s =
      { s with
        err := 5
        errinfo := packErrinfo (s.cmd.extractLsb' 0 4) 0 0 0
        errlog := s.errlog ||| 0x00000020#32
        phase := .idle
        busy := false
        done := true }

/-- R131, R136 with logs 3, 5 and 13 (the schedule, the idle step and the grouping of engine steps are the
model's): an `engineStep` event is one engine step, a `host` event one host action. Where the engine has the turn,
by an `engineRun` event or because nothing is scheduled, the idle engine changes nothing, a command under way takes
one engine step, and so does an illegal word. -/
def Obligations.StepServesTheNextEvent : Prop :=
  ∀ (s : State) (rest : List Event),
    (s.schedule = .engineStep :: rest → step s = .next (engineStep { s with schedule := rest })) ∧
    (∀ a, s.schedule = .host a :: rest → step s = .next (serveHost a { s with schedule := rest })) ∧
    ∀ s', (s.schedule = [] ∧ s' = s) ∨ (s.schedule = .engineRun :: rest ∧ s' = { s with schedule := rest }) →
      (s.phase = .idle → step s = .next s') ∧
      (s.phase ≠ .idle → s.phase ≠ .dispatch → step s = .next (engineStep s')) ∧
      ∀ e, s.phase = .dispatch → decode s.cmd = .error e → step s = .next (engineStep s')

/-- R135: the engine goes from a phase only to the phases the table lists after it. -/
def Obligations.EngineFollowsThePhaseTable : Prop :=
  ∀ s : State, s.phase ≠ .idle → (engineStep s).phase ∈ nextPhases s.phase

/-- R137, R143: an engine step writes no artifact but the running command's destination, and neither CTRL nor
CMD. -/
def Obligations.EngineStepFrame : Prop := ∀ s : State, Untouched (phaseDest s) s (engineStep s)

/-- R138: no engine step reads CTRL.IE, the schedule or the last answer. -/
def Obligations.EngineIgnoresTheHostSide : Prop :=
  ∀ (s : State) (b : Bool) (es : List Event) (r : Option Response),
    engineStep { s with ie := b, schedule := es, response := r } =
      { engineStep s with ie := b, schedule := es, response := r }

/-- R68, R138: while a command runs, a host action that does not reset the block changes nothing but CTRL.IE. -/
def Obligations.HostCannotDisturbACommand : Prop :=
  ∀ (a : HostAction) (s : State), BlockSound s → s.busy = true → ¬ Resets a →
    serveHost a s = { s with ie := (serveHost a s).ie, response := (serveHost a s).response }

/-- R138, R146: a command run in one step ends where its engine steps end, within the step bounds of R146,
and it does end. -/
def Obligations.CommandIsItsEngineSteps : Prop :=
  ∀ (i : Instr) (s : State), WellKept s → Accepted i s → (i = .derive → s.treeValid = true → TreeShape s) →
    ∃ n ≤ stepBound i s, exec i s = .next (engineStep^[n] s) ∧ (engineStep^[n] s).phase = .idle ∧
      ∀ m < n, (engineStep^[m] s).phase ≠ .idle

/-- R137, R143, R279: a command leaves every artifact but its destination, CTRL and CMD as they were, and the
engine idle with DONE set. -/
def Obligations.CommandFrame : Prop :=
  ∀ (i : Instr) (s t : State), exec i s = .next t →
    Untouched (destOf i) s t ∧ t.phase = .idle ∧ t.busy = false ∧ t.done = true

/-- R279, R278: after a fault the state is that of acceptance but for the empty destination, the flags, ERRINFO
and ERRLOG, which has gained the fault's bit and nothing else. -/
def Obligations.FaultsLeaveNoResult : Prop :=
  ∀ (i : Instr) (s t : State), Accepted i s → exec i s = .next t → t.err ≠ 0 →
    (∀ a ∈ destOf i, ArtifactEmpty a t) ∧ Untouched (destOf i) s t ∧ t.busy = false ∧ t.done = true ∧
      t.errlog = s.errlog ||| (1#32 <<< t.err.toNat) ∧ t.errinfo.extractLsb' 28 4 = s.cmd.extractLsb' 0 4

/-- R277: which command can raise what, with which sub-cause. -/
def Obligations.CommandsRaiseOnlyTheirFaults : Prop :=
  ∀ (i : Instr) (s t : State), Accepted i s → exec i s = .next t →
    let sub := t.errinfo.extractLsb' 24 4
    match i with
    | .nop | .clear _ | .analyze => t.err = 0
    | .build | .derive => t.err = 0 ∨ (t.err = 1 ∧ sub = 0)
    | .encode => t.err = 0 ∨ (t.err = 2 ∧ sub = 0) ∨ (t.err = 4 ∧ sub = 1)
    | .decode => t.err = 0 ∨ (t.err = 3 ∧ (sub = 1 ∨ sub = 2 ∨ sub = 3)) ∨ (t.err = 4 ∧ sub = 2)

/-- R45 to R48, R133: a command latches its own opcode and mask and changes only the working state the spec
says it uses: the queue BUILD's, the stack DERIVE's, the candidate, its counters and `e` DECODE's, and `i`,
`j`, `t` those of their users. -/
def Obligations.WorkingStateFrame : Prop :=
  ∀ (c : Instr) (s t : State), exec c s = .next t →
    t.op = opcodeOf c ∧ t.opmask = maskOf c ∧
    (c ≠ .build → t.work.heap = s.work.heap ∧ t.work.heapCnt = s.work.heapCnt) ∧
    (c ≠ .derive → t.work.stk = s.work.stk ∧ t.work.sp = s.work.sp) ∧
    (c ≠ .decode → t.work.cand = s.work.cand ∧ t.work.clen = s.work.clen ∧ t.work.cstart = s.work.cstart ∧
      t.work.lmax = s.work.lmax ∧ t.work.e = s.work.e) ∧
    (c ≠ .build → c ≠ .decode → t.work.i = s.work.i) ∧
    (c ≠ .analyze → c ≠ .encode → t.work.j = s.work.j) ∧
    (c ≠ .encode → c ≠ .decode → t.work.t = s.work.t)

/-- R147: two runs of a command from states that agree on its sources agree on its destination, ERR and
ERRINFO. -/
def Obligations.SourcesDetermineTheResult : Prop :=
  ∀ (i : Instr) (s s' t t' : State), WellKept s → WellKept s' → Accepted i s → Accepted i s' →
    (∀ a ∈ sourcesOf i, SameArtifact a s s') → exec i s = .next t → exec i s' = .next t' →
    (∀ a ∈ destOf i, SameArtifact a t t') ∧ t'.err = t.err ∧ t'.errinfo = t.errinfo

/-! ## The commands -/

/-- R139: NOP completes and changes nothing but the flags and the latched command. -/
def Obligations.NopCompletes : Prop :=
  ∀ s : State, Accepted .nop s →
    exec .nop s = .next { s with op := 0, opmask := 0, phase := .idle, busy := false, done := true }

/-- R140: CLEAR empties exactly the selected artifacts and completes; the hidden working state is as before. -/
def Obligations.ClearEmptiesTheSelected : Prop :=
  ∀ (mask : BitVec 6) (s : State), Accepted (.clear mask) s →
    ∃ t, exec (.clear mask) s = .next t ∧ Completed s t ∧ (∀ a ∈ selected mask, ArtifactEmpty a t) ∧
      Untouched (selected mask) s t ∧ t.work = s.work

/-- R160, R161: ANALYZE counts the occurrences of every symbol in the input and completes; the counts sum to
SYMLEN. -/
def Obligations.AnalyzeCountsOccurrences : Prop :=
  ∀ s : State, Accepted .analyze s →
    ∃ t, exec .analyze s = .next t ∧ Completed s t ∧ Untouched [.freq] s t ∧
      (∀ x, (freqAt t.mem x).toNat = (inputSymbols s).count x) ∧
      (allSymbols.map fun x => (freqAt t.mem x).toNat).sum = s.symlen.toNat

/-- R185: BUILD on the empty table faults with InvalidInput and leaves no tree. -/
def Obligations.BuildOnTheEmptyTableFaults : Prop :=
  ∀ s : State, Accepted .build s → (∀ x, freqAt s.mem x = 0) →
    ∃ t, exec .build s = .next t ∧ Faulted .invalidInput 0 0 0 s t ∧ t.errinfo = 0x20000000#32 ∧
      ArtifactEmpty .tree t ∧ Untouched [.tree] s t

/-- R175: `insert` and `extract_min` keep the heap invariant; `insert` adds its index to the queue, and
`extract_min` returns the least element and takes it out. -/
def Obligations.HeapIsAPriorityQueue : Prop :=
  ∀ (m : Memory) (w : Work), Store.WF Config.kMax (0 : NodeIdx) w.heap → HeapOrdered m w → (heapList w).Nodup →
    (∀ n, w.heapCnt < Config.kMax → n ∉ heapList w →
      HeapOrdered m (heapInsert m n w) ∧ (heapList (heapInsert m n w)).Perm (n :: heapList w)) ∧
    (1 ≤ w.heapCnt → w.heapCnt ≤ Config.kMax →
      HeapOrdered m (heapExtract m w).2 ∧
      (heapList w).Perm ((heapExtract m w).1 :: heapList (heapExtract m w).2) ∧
      ∀ n ∈ heapList (heapExtract m w).2, keyLt m (heapExtract m w).1 n = true)

/-- R170: BUILD completes with exactly the tree of rule R170: the leaves in ascending ordinal, then `k - 1`
merges of the two least keys, and nothing above; on the table of no symbol it faults and leaves no tree. -/
def Obligations.BuildMakesTheReferenceTree : Prop :=
  ∀ s : State, WellKept s → Accepted .build s →
    ∃ t, exec .build s = .next t ∧ Untouched [.tree] s t ∧
      if presentSymbols s.mem = [] then Faulted .invalidInput 0 0 0 s t ∧ ArtifactEmpty .tree t
      else
        Completed s t ∧ (∀ n < Config.nodeMax, nodeAt t.mem n = recAt (referenceTree s.mem) n) ∧
          t.root.toNat = 2 * (presentSymbols s.mem).length - 2 ∧
          t.nnodes.toNat = 2 * (presentSymbols s.mem).length - 1 ∧
          t.nleaves.toNat = (presentSymbols s.mem).length ∧ t.treeValid = true

/-- R184, R176: the root's weight is the sum of all counts; no sum overflows. -/
def Obligations.RootWeighsTheWholeTable : Prop :=
  ∀ s t : State, WellKept s → Accepted .build s → presentSymbols s.mem ≠ [] → exec .build s = .next t →
    (nodeAt t.mem t.root.toNat).weight.toNat = (allSymbols.map fun x => (freqAt s.mem x).toNat).sum

/-- R182: in every Internal record the left child weighs no more than the right, and of two equal weights the
left child has the smaller index. -/
def Obligations.LighterChildIsLeft : Prop :=
  ∀ s t : State, WellKept s → Accepted .build s → exec .build s = .next t →
    ∀ n < Config.nodeMax, (nodeAt t.mem n).used = true → (nodeAt t.mem n).leaf = false →
      keyLt t.mem (nodeAt t.mem n).left (nodeAt t.mem n).right = true

/-- R202, R206: DERIVE without a tree faults with InvalidInput and leaves the codebook empty. -/
def Obligations.DeriveWithoutATreeFaults : Prop :=
  ∀ s : State, Accepted .derive s → s.treeValid = false →
    ∃ t, exec .derive s = .next t ∧ Faulted .invalidInput 0 0 0 s t ∧ t.errinfo = 0x30000000#32 ∧
      ArtifactEmpty .cb t ∧ Untouched [.cb] s t

/-- R205: the code word of the only symbol of a single-leaf tree is "0", and the codebook has no other entry. -/
def Obligations.DeriveOnASingleLeaf : Prop :=
  ∀ s : State, Accepted .derive s → s.treeValid = true → (nodeAt s.mem s.root.toNat).leaf = true →
    ∃ t, exec .derive s = .next t ∧ Completed s t ∧ Untouched [.cb] s t ∧
      (∀ x, cbAt t.mem x =
        if x = (nodeAt s.mem s.root.toNat).sym then { valid := true, len := 1, code := 0 } else CodeEntry.zero)

/-- R200, R204: DERIVE on a tree completes with the root-to-leaf paths as code words, "0" for a single leaf,
and every other entry absent; without a tree it faults and leaves no codebook. -/
def Obligations.DeriveRecordsThePaths : Prop :=
  ∀ s : State, WellKept s → Accepted .derive s → (s.treeValid = true → TreeShape s) →
    ∃ t, exec .derive s = .next t ∧ Untouched [.cb] s t ∧
      if s.treeValid then
        Completed s t ∧
          (∀ q n, LeafAt s q n → HoldsCode (cbAt t.mem (nodeAt s.mem n).sym) (if q = [] then [false] else q)) ∧
          ∀ x, (¬ ∃ q n, LeafAt s q n ∧ (nodeAt s.mem n).sym = x) → cbAt t.mem x = CodeEntry.zero
      else Faulted .invalidInput 0 0 0 s t ∧ ArtifactEmpty .cb t

/-- R208: over a tree of `k` leaves every code word has between 1 and `max 1 (k - 1)` bits. -/
def Obligations.CodeLengthsAreBounded : Prop :=
  ∀ s t : State, WellKept s → Accepted .derive s → s.treeValid = true → TreeShape s → exec .derive s = .next t →
    ∀ x, (cbAt t.mem x).valid = true →
      1 ≤ (cbAt t.mem x).len.toNat ∧ (cbAt t.mem x).len.toNat ≤ max 1 (s.nleaves.toNat - 1)

/-- R209: a derived codebook is prefix-free. -/
def Obligations.DerivedCodebookIsPrefixFree : Prop :=
  ∀ s t : State, WellKept s → Accepted .derive s → s.treeValid = true → TreeShape s → exec .derive s = .next t →
    PrefixFree t.mem

/-- R210: after BUILD and DERIVE exactly the symbols of the table have a code word, and they are NLEAVES many. -/
def Obligations.EveryTableSymbolHasACode : Prop :=
  ∀ s t u : State, WellKept s → runCommand .build s = .next t → runCommand .derive t = .next u →
    (∀ x, (cbAt u.mem x).valid = true ↔ freqAt s.mem x ≠ 0) ∧
      (allSymbols.filter fun x => (cbAt u.mem x).valid).length = u.nleaves.toNat

/-- R220, R221: when every input symbol has an entry and the code words fit, ENCODE completes with their
concatenation in BITBUF, its length in BITLEN, and zeros above it. -/
def Obligations.EncodeConcatenatesTheCodeWords : Prop :=
  ∀ s : State, s.mem.wf → Accepted .encode s → Covered s.mem (inputSymbols s) →
    (encodeList s.mem (inputSymbols s)).length ≤ Config.mMax →
    ∃ t, exec .encode s = .next t ∧ Completed s t ∧ Untouched [.bit] s t ∧
      t.bitlen.toNat = (encodeList s.mem (inputSymbols s)).length ∧
      ∀ b < Config.mMax, bitAt t.mem b = (encodeList s.mem (inputSymbols s)).getD b false

/-- R223, R226: at the first input position whose symbol has no entry, everything before it having fitted,
ENCODE faults with MissingCode and leaves no stream. -/
def Obligations.EncodeReportsTheMissingCode : Prop :=
  ∀ (s : State) (j : Nat), s.mem.wf → Accepted .encode s → j < s.symlen.toNat →
    Covered s.mem ((inputSymbols s).take j) →
    (encodeList s.mem ((inputSymbols s).take j)).length ≤ Config.mMax →
    (cbAt s.mem (symAt s.mem j)).valid = false →
    ∃ t, exec .encode s = .next t ∧ Faulted .missingCode 0 (symAt s.mem j) j s t ∧ ArtifactEmpty .bit t ∧
      Untouched [.bit] s t

/-- R224, R226: at the first input position whose code word no longer fits, ENCODE faults with
CapacityExceeded, sub-cause 1, and leaves no stream. -/
def Obligations.EncodeReportsTheFullBuffer : Prop :=
  ∀ (s : State) (j : Nat), s.mem.wf → Accepted .encode s → j < s.symlen.toNat →
    Covered s.mem ((inputSymbols s).take (j + 1)) →
    (encodeList s.mem ((inputSymbols s).take j)).length ≤ Config.mMax →
    Config.mMax < (encodeList s.mem ((inputSymbols s).take (j + 1))).length →
    ∃ t, exec .encode s = .next t ∧ Faulted .capacityExceeded 1 (symAt s.mem j) j s t ∧ ArtifactEmpty .bit t ∧
      Untouched [.bit] s t

/-- R225: the stream's length is the sum over the symbols of their count times their code length. -/
def Obligations.StreamLengthIsTheCost : Prop :=
  ∀ s t : State, s.mem.wf → Accepted .encode s → exec .encode s = .next t → t.err = 0 →
    t.bitlen.toNat = (allSymbols.map fun x => (inputSymbols s).count x * (cbAt s.mem x).len.toNat).sum

/-- R240, R243 to R249, R252: DECODE does what the document's scan does: the emitted symbols, or the scan's
fault with an empty destination. -/
def Obligations.DecodeFollowsTheScan : Prop :=
  ∀ s : State, s.mem.wf → Accepted .decode s →
    ∃ t, exec .decode s = .next t ∧ Untouched [.dsym] s t ∧
      match decodeReference s with
      | .symbols xs =>
        Completed s t ∧ t.dsymlen.toNat = xs.length ∧ ∀ e < Config.nMax, dsymAt t.mem e = xs.getD e 0
      | .fault f sub x idx => Faulted f sub x idx s t ∧ ArtifactEmpty .dsym t

/-- R253: the empty stream decodes to nothing, whatever the codebook; any other stream under an empty
codebook is Overlong at bit 0. -/
def Obligations.DecodeOfTheEmpty : Prop :=
  ∀ s : State, Accepted .decode s →
    (s.bitlen = 0 → ∃ t, exec .decode s = .next t ∧ Completed s t ∧ t.dsymlen = 0) ∧
    (s.bitlen ≠ 0 → (∀ x, (cbAt s.mem x).valid = false) →
      ∃ t, exec .decode s = .next t ∧ Faulted .corruptStream 2 0 0 s t ∧ t.errinfo = 0x52000000#32)

/-- R251: under a prefix-free codebook that covers the input, with the stream fitting, ENCODE then DECODE gives
the input back; under any codebook if the input is empty. -/
def Obligations.DecodeUndoesEncodeOfSymbols : Prop :=
  ∀ s t : State, s.mem.wf → ArtifactsSound s → Accepted .encode s → (s.symlen = 0 ∨ PrefixFree s.mem) →
    Covered s.mem (inputSymbols s) → (encodeList s.mem (inputSymbols s)).length ≤ Config.mMax →
    exec .encode s = .next t →
    ∃ u, runCommand .decode t = .next u ∧ u.err = 0 ∧ outputSymbols u = inputSymbols s

/-- R251: for every non-empty input, ANALYZE, BUILD, DERIVE, ENCODE and DECODE give the input back, provided
the stream fits. -/
def Obligations.PipelineRoundTrip : Prop :=
  ∀ s : State, WellKept s → LengthsInRange s → s.symlen ≠ 0 →
    ∃ a b c d, runCommand .analyze s = .next a ∧ runCommand .build a = .next b ∧ runCommand .derive b = .next c ∧
      runCommand .encode c = .next d ∧ a.err = 0 ∧ b.err = 0 ∧ c.err = 0 ∧
      (d.err = 0 → ∃ u, runCommand .decode d = .next u ∧ u.err = 0 ∧ outputSymbols u = inputSymbols s)

/-! ## The host's transactions -/

/-- R60, R70: a read changes nothing of the block; the answer is recorded in the model's own field (log 3). -/
def Obligations.ReadsHaveNoSideEffect : Prop :=
  ∀ (size : Nat) (off : Offset) (s : State),
    ∃ r, serveHost (.read size off) s = { s with response := some r } ∧
      (r = .accessError ↔ memRead size off s = none) ∧ ∀ v, r = .value v ↔ memRead size off s = some v

/-- R61: a write that returns AccessError has no effect on the block; the answer is recorded in the model's own
field (log 3). -/
def Obligations.RefusedWritesChangeNothing : Prop :=
  ∀ (size : Nat) (off : Offset) (v : Word) (s : State),
    (memWrite size off v s = none → serveHost (.write size off v) s = { s with response := some .accessError }) ∧
    ∀ t, memWrite size off v s = some t → serveHost (.write size off v) s = { t with response := some .ok }

/-- R64 for reads: a read is refused exactly when its size or alignment is wrong, nothing is mapped there, or
the block is BUSY and the location is not one R68 lists. -/
def Obligations.ReadRefusedExactlyWhen : Prop :=
  ∀ (size : Nat) (off : Offset) (s : State),
    memRead size off s = none ↔
      (size ≠ 4 ∨ off.toNat % 4 ≠ 0) ∨ Unmapped off.toNat ∨ (s.busy = true ∧ ¬ BusyReadOffset off.toNat)

/-- R64 for writes: the six causes. -/
def Obligations.WriteRefusedExactlyWhen : Prop :=
  ∀ (size : Nat) (off : Offset) (v : Word) (s : State),
    memWrite size off v s = none ↔
      (size ≠ 4 ∨ off.toNat % 4 ≠ 0) ∨ Unmapped off.toNat ∨ ReadOnlyOffset off.toNat ∨
        (s.busy = true ∧ ¬ BusyWriteOffset off.toNat) ∨ v &&& ~~~definedMask off.toNat ≠ 0 ∨
        DataOutOfRange off.toNat v

/-- R70, R73, R75, R76, R78: a write that stores reads back as written, and every other location reads as
before. R74, R76: stream bit `t` is bit `31 - (t mod 32)` of the word at `0x1000 + 4 * (t / 32)`, and `code[j]` of
`CB[x]` is bit `31 - (j mod 32)` of the word at `0x4000 + 64 * x + 4 + 4 * (j / 32)`. -/
def Obligations.StoredWordReadsBack : Prop :=
  ∀ s : State, s.busy = false →
    (∀ (off : Offset) (v : Word) (t : State), s.mem.wf → PlainOffset off.toNat → memWrite 4 off v s = some t →
      memRead 4 off t = some v ∧ ∀ off', off' ≠ off → memRead 4 off' t = memRead 4 off' s) ∧
    (∀ t < Config.mMax, ∃ v, memRead 4 (BitVec.ofNat 16 (0x1000 + 4 * (t / 32))) s = some v ∧
      bitAt s.mem t = v.getLsbD (31 - t % 32)) ∧
    ∀ (x : Symbol), ∀ j < Config.codeMax, ∃ v,
      memRead 4 (BitVec.ofNat 16 (0x4000 + 64 * x.toNat + 4 + 4 * (j / 32))) s = some v ∧
      seqBit (cbAt s.mem x).code j = v.getLsbD (31 - j % 32)

/-- R30 to R32: the constants read as such in every state; R33: CTRL reads IE in bit 0. Idle, CMD, ERRINFO,
ERRLOG and the data registers read as stored (R21, R34, R36, R37), FREQ, SYMBUF and DSYM words as their elements
(R72, R78), CTL as valid and len (R76) with its undefined bits 0 (93_implementation_defined.md S2), and the four
words of a node record as R75 lays them out. STATUS is in StatusReadAndAcknowledge. -/
def Obligations.ReadsReturnTheState : Prop :=
  ∀ s : State,
    memRead 4 0x0000#16 s = some 0x41594843#32 ∧ memRead 4 0x0004#16 s = some 0xFF282008#32 ∧
    memRead 4 0x0008#16 s = some 0x80001000#32 ∧
    memRead 4 0x000C#16 s = some (if s.ie then 0x00000001#32 else 0x00000000#32) ∧
    (s.busy = false →
      memRead 4 0x0010#16 s = some s.cmd ∧ memRead 4 0x0018#16 s = some s.errinfo ∧
      memRead 4 0x001C#16 s = some s.errlog ∧ memRead 4 0x0020#16 s = some (s.symlen.setWidth 32) ∧
      memRead 4 0x0024#16 s = some (s.bitlen.setWidth 32) ∧ memRead 4 0x0028#16 s = some (s.dsymlen.setWidth 32) ∧
      memRead 4 0x002C#16 s = some (s.root.setWidth 32) ∧ memRead 4 0x0030#16 s = some (s.nnodes.setWidth 32) ∧
      memRead 4 0x0034#16 s = some (s.nleaves.setWidth 32) ∧
      (∀ x : Symbol, memRead 4 (BitVec.ofNat 16 (0x0400 + 4 * x.toNat)) s = some (freqAt s.mem x)) ∧
      (∀ j < Config.nMax,
        memRead 4 (BitVec.ofNat 16 (0x8000 + 4 * j)) s = some ((symAt s.mem j).setWidth 32) ∧
        memRead 4 (BitVec.ofNat 16 (0xC000 + 4 * j)) s = some ((dsymAt s.mem j).setWidth 32)) ∧
      (∀ x : Symbol, ∃ v, memRead 4 (BitVec.ofNat 16 (0x4000 + 64 * x.toNat)) s = some v ∧
        v.getLsbD 31 = (cbAt s.mem x).valid ∧ v.extractLsb' 8 23 = 0 ∧ v.extractLsb' 0 8 = (cbAt s.mem x).len) ∧
      ∀ n < Config.nodeMax, ∃ lo hi child info,
        memRead 4 (BitVec.ofNat 16 (0x2000 + 16 * n)) s = some lo ∧ lo = (nodeAt s.mem n).weight.extractLsb' 0 32 ∧
        memRead 4 (BitVec.ofNat 16 (0x2000 + 16 * n + 4)) s = some hi ∧
        hi.extractLsb' 0 8 = (nodeAt s.mem n).weight.extractLsb' 32 8 ∧ hi.extractLsb' 8 24 = 0 ∧
        memRead 4 (BitVec.ofNat 16 (0x2000 + 16 * n + 8)) s = some child ∧
        child.extractLsb' 0 9 = (nodeAt s.mem n).left ∧ child.extractLsb' 9 7 = 0 ∧
        child.extractLsb' 16 9 = (nodeAt s.mem n).right ∧ child.extractLsb' 25 7 = 0 ∧
        memRead 4 (BitVec.ofNat 16 (0x2000 + 16 * n + 12)) s = some info ∧
        info.getLsbD 31 = (nodeAt s.mem n).used ∧ info.getLsbD 30 = (nodeAt s.mem n).leaf ∧
        info.extractLsb' 8 22 = 0 ∧ info.extractLsb' 0 8 = (nodeAt s.mem n).sym)

/-- R132: a write to CMD is refused while BUSY and is otherwise the acceptance of the command, whatever the
word; `irq` is then 0. -/
def Obligations.CmdWriteIsAcceptance : Prop :=
  ∀ (w : Word) (s : State),
    (s.busy = true → memWrite 4 0x0010#16 w s = none) ∧
    (s.busy = false → ∃ t, memWrite 4 0x0010#16 w s = some t ∧ irq t = false ∧
      t = { s with cmd := w, busy := true, done := false, err := 0, errinfo := 0, phase := .dispatch })

/-- R79: SYMLEN and BITLEN take every value up to the capacity and refuse the rest. -/
def Obligations.LengthWritesAreRangeChecked : Prop :=
  ∀ (v : Word) (s : State), s.busy = false →
    (memWrite 4 0x0020#16 v s = if v.toNat ≤ 4096 then some { s with symlen := v.setWidth 13 } else none) ∧
    memWrite 4 0x0024#16 v s = if v.toNat ≤ 32768 then some { s with bitlen := v.setWidth 16 } else none

/-- R77: a CTL word with defined bits only is refused exactly when it is valid with length 0, and stored
otherwise. -/
def Obligations.CtlWritesAreChecked : Prop :=
  ∀ (x : Symbol) (v : Word) (s : State), s.busy = false → v &&& ~~~0x800000FF#32 = 0 →
    memWrite 4 (BitVec.ofNat 16 (0x4000 + 64 * x.toNat)) v s =
      if v = 0x80000000#32 then none
      else some { s with mem := setCb s.mem x { cbAt s.mem x with valid := v.getLsbD 31, len := v.extractLsb' 0 8 } }

/-- R35, R282: STATUS reads exactly 1 while BUSY; idle, its bit 0 is 0, bit 1 is DONE, bit 2 TREE_VALID, bits
11:8 ERR and all others 0. A write of `0x00000002` clears DONE and leaves ERR, ERRINFO and TREE_VALID. -/
def Obligations.StatusReadAndAcknowledge : Prop :=
  ∀ s : State,
    (s.busy = true → memRead 4 0x0014#16 s = some 0x00000001#32) ∧
    (s.busy = false → ∃ v, memRead 4 0x0014#16 s = some v ∧ v.getLsbD 1 = s.done ∧ v.getLsbD 2 = s.treeValid ∧
      v.extractLsb' 8 4 = s.err ∧ v &&& ~~~0x00000F06#32 = 0) ∧
    memWrite 4 0x0014#16 0x00000002#32 s = some { s with done := false } ∧
    memWrite 4 0x0014#16 0x00000000#32 s = some s

/-- R37, R286: a write to ERRLOG clears exactly the bits written as 1. -/
def Obligations.ErrlogIsWriteOneToClear : Prop :=
  ∀ (v : Word) (s : State), s.busy = false → v &&& ~~~0x0000003E#32 = 0 →
    ∃ t, memWrite 4 0x001C#16 v s = some t ∧ t = { s with errlog := t.errlog } ∧
      ∀ b, t.errlog.getLsbD b = (s.errlog.getLsbD b && !v.getLsbD b)

/-- R38, R282: `irq` is DONE and IE, 0 after reset and while BUSY; writing IE sets or masks it without touching
DONE. -/
def Obligations.InterruptFollowsDoneAndEnable : Prop :=
  irq State.reset = false ∧ (∀ s : State, BlockSound s → s.busy = true → irq s = false) ∧
  ∀ s : State,
    irq s = (s.done && s.ie) ∧
    memWrite 4 0x000C#16 0x00000001#32 s = some { s with ie := true } ∧
    memWrite 4 0x000C#16 0x00000000#32 s = some { s with ie := false } ∧
    irq { s with ie := true } = s.done ∧ irq { s with ie := false } = false

/-- R67: no host action but a reset changes the tree or the decoded output. -/
def Obligations.HostCannotWriteTreeOrOutput : Prop :=
  ∀ (a : HostAction) (s : State), ¬ Resets a →
    SameArtifact .tree s (serveHost a s) ∧ SameArtifact .dsym s (serveHost a s)

/-- R286, R303: a step the host has no part in leaves CMD and CTRL.IE, and clears no bit of ERRLOG. -/
def Obligations.EngineKeepsHostRegistersAndLog : Prop :=
  ∀ s t : State, (∀ a rest, s.schedule ≠ .host a :: rest) → step s = .next t →
    t.cmd = s.cmd ∧ t.ie = s.ie ∧ s.errlog &&& t.errlog = s.errlog

/-! ## Reset and invariants -/

/-- R50: the state after reset, the constants as a read gives them. -/
def Obligations.ResetValues : Prop :=
  State.reset.ie = false ∧ State.reset.cmd = 0 ∧ State.reset.busy = false ∧ State.reset.done = false ∧
    State.reset.treeValid = false ∧ State.reset.err = 0 ∧ State.reset.errinfo = 0 ∧ State.reset.errlog = 0 ∧
    (∀ a, ArtifactEmpty a State.reset) ∧ State.reset.phase = .idle ∧ State.reset.op = 0 ∧
    State.reset.opmask = 0 ∧ State.reset.work.heapCnt = 0 ∧ State.reset.work.sp = 0 ∧
    (∀ c, heapAt State.reset.work.heap c = 0 ∧ stkAt State.reset.work c = ⟨0, 0, 0⟩) ∧
    State.reset.work.cand = 0 ∧ State.reset.work.clen = 0 ∧ State.reset.work.cstart = 0 ∧
    State.reset.work.lmax = 0 ∧ State.reset.work.i = 0 ∧ State.reset.work.j = 0 ∧ State.reset.work.t = 0 ∧
    State.reset.work.e = 0 ∧ irq State.reset = false ∧
    memRead 4 0x0000#16 State.reset = some 0x41594843#32 ∧ memRead 4 0x0004#16 State.reset = some 0xFF282008#32 ∧
    memRead 4 0x0008#16 State.reset = some 0x80001000#32

/-- R30 to R32, R50, R86: after reset every mapped word reads 0 but the three constants, and the holes are
access errors. -/
def Obligations.ResetReads : Prop :=
  ∀ off : Offset, off.toNat % 4 = 0 →
    memRead 4 off State.reset =
      if Unmapped off.toNat then none
      else if off = 0x0000#16 then some 0x41594843#32
      else if off = 0x0004#16 then some 0xFF282008#32
      else if off = 0x0008#16 then some 0x80001000#32
      else some 0

/-- R302: a write to CTRL with bit 31 set and no undefined bit is a reset, at any time, and IE is 0 after it;
R300: so is the host's hard reset. Only the model's own fields keep their values (log 10). -/
def Obligations.SoftResetIsHardReset : Prop :=
  ∀ (v : Word) (s : State), v = 0x80000000#32 ∨ v = 0x80000001#32 →
    memWrite 4 0x000C#16 v s = some { State.reset with schedule := s.schedule, response := s.response } ∧
    serveHost .hardReset s = { State.reset with schedule := s.schedule, response := s.response }

/-- R24, R35, R37, R45 to R48, R84: every step keeps the block sound: arrays canonical, BUSY exactly while the
engine has a step, registers and cursors in their ranges, ERRLOG's undefined bits 0, the running command the
one in CMD. -/
def Obligations.EveryStepKeepsTheBlockSound : Prop :=
  ∀ s t : State, BlockSound s → step s = .next t → BlockSound t

/-- The block is sound after reset (the premise of EveryStepKeepsTheBlockSound is met). -/
def Obligations.ResetIsSound : Prop := BlockSound State.reset ∧ ArtifactsSound State.reset

/-- R52: a command run on sound artifacts leaves sound artifacts: no tree or a tree of the stated shape,
every valid entry of length at least 1, lengths in range. -/
def Obligations.CommandsKeepArtifactsSound : Prop :=
  ∀ (i : Instr) (s t : State), WellKept s → ArtifactsSound s → Accepted i s → exec i s = .next t → ArtifactsSound t

/-- R52: the host cannot break them. -/
def Obligations.HostKeepsArtifactsSound : Prop :=
  ∀ (a : HostAction) (s : State), s.mem.wf → ArtifactsSound s → ArtifactsSound (serveHost a s)
end

