-- ==== Sys2Proof/Laws/Store.lean ====
section
/-! SUPPORT. The laws of arrays as data: reading after writing, the canonical form, and that canonical
arrays are equal when they read alike. -/

namespace Sys2Proof.Machine

variable {α : Type}

@[simp] theorem Store.read_nil (d : α) (a : Nat) : Store.read d [] a = d := rfl

theorem Store.read_cons (d : α) (p : Nat × α) (m : Store α) (a : Nat) :
    Store.read d (p :: m) a = if a = p.1 then p.2 else Store.read d m a := rfl

/-- Below every listed index an array reads as its all-zero element. -/
theorem Store.read_of_lt (d : α) (m : Store α) (a : Nat) (h : ∀ p ∈ m, a < p.1) : Store.read d m a = d := by
  induction m with
  | nil => rfl
  | cons p m ih =>
    rw [Store.read_cons, if_neg (h p (by simp)).ne, ih fun q hq => h q (by simp [hq])]

/-- Reading after writing, in an array whose indexes strictly rise. -/
theorem Store.read_write [DecidableEq α] (d : α) (m : Store α) (hm : List.Pairwise (fun p q => p.1 < q.1) m)
    (a b : Nat) (v : α) : Store.read d (Store.write d m a v) b = if b = a then v else Store.read d m b := by
  induction m with
  | nil => by_cases hv : v = d <;> simp [Store.write, Store.read_cons, hv]
  | cons p m ih =>
    obtain ⟨hp, hm'⟩ := List.pairwise_cons.1 hm
    unfold Store.write
    by_cases h1 : a < p.1
    · have hd : Store.read d (p :: m) a = d :=
        Store.read_of_lt d _ a (by simp only [List.mem_cons]; rintro q (rfl | hq); exacts [h1, h1.trans (hp q hq)])
      by_cases hv : v = d
      · by_cases hb : b = a
        · subst hb; simp [h1, hv, hd]
        · simp [h1, hv, hb]
      · simp [h1, hv, Store.read_cons]
    · by_cases h2 : a = p.1
      · have hd : Store.read d m p.1 = d := Store.read_of_lt d _ _ hp
        by_cases hv : v = d
        · by_cases hb : b = p.1
          · subst hb; simp [h2, hv, hd]
          · simp [h2, hv, hb, Store.read_cons]
        · by_cases hb : b = p.1 <;> simp [h2, hv, hb, Store.read_cons]
      · simp only [h1, h2, if_false, Store.read_cons, ih hm']
        by_cases hb : b = p.1
        · subst hb; simp [Ne.symm h2]
        · simp [hb]

theorem Store.mem_write [DecidableEq α] (d : α) (m : Store α) (a : Nat) (v : α) (p : Nat × α)
    (hp : p ∈ Store.write d m a v) : (p = (a, v) ∧ v ≠ d) ∨ p ∈ m := by
  induction m with
  | nil =>
    by_cases hv : v = d
    · simp [Store.write, hv] at hp
    · simp only [Store.write, hv, if_false, List.mem_singleton] at hp
      exact .inl ⟨hp, hv⟩
  | cons q m ih =>
    unfold Store.write at hp
    split_ifs at hp with h1 hv h2 hv
    · exact .inr hp
    · rcases List.mem_cons.1 hp with rfl | h
      · exact .inl ⟨rfl, hv⟩
      · exact .inr h
    · exact .inr (by simp [hp])
    · rcases List.mem_cons.1 hp with rfl | h
      · exact .inl ⟨by rw [h2], hv⟩
      · exact .inr (by simp [h])
    · rcases List.mem_cons.1 hp with rfl | h
      · exact .inr (by simp)
      · rcases ih h with h | h
        · exact .inl h
        · exact .inr (by simp [h])

theorem Store.pairwise_write [DecidableEq α] (d : α) (m : Store α) (hm : List.Pairwise (fun p q => p.1 < q.1) m)
    (a : Nat) (v : α) : List.Pairwise (fun p q => p.1 < q.1) (Store.write d m a v) := by
  induction m with
  | nil => by_cases hv : v = d <;> simp [Store.write, hv]
  | cons p m ih =>
    obtain ⟨hp, hm'⟩ := List.pairwise_cons.1 hm
    unfold Store.write
    split_ifs with h1 hv h2 hv
    · exact hm
    · refine List.pairwise_cons.2 ⟨?_, hm⟩
      simp only [List.mem_cons]
      rintro q (rfl | hq)
      exacts [h1, h1.trans (hp q hq)]
    · exact hm'
    · exact List.pairwise_cons.2 ⟨hp, hm'⟩
    · refine List.pairwise_cons.2 ⟨fun q hq => ?_, ih hm'⟩
      rcases Store.mem_write d m a v q hq with ⟨rfl, _⟩ | h
      · show p.1 < a; omega
      · exact hp q h

/-- Storing an element keeps the canonical form. -/
theorem Store.WF_put [DecidableEq α] (size : Nat) (d : α) (m : Store α) (hm : Store.WF size d m) (a : Nat)
    (v : α) : Store.WF size d (Store.put size d m a v) := by
  unfold Store.put
  split_ifs with h
  · refine ⟨Store.pairwise_write d m hm.1 a v, fun p hp => ?_⟩
    rcases Store.mem_write d m a v p hp with ⟨rfl, hv⟩ | h'
    exacts [⟨h, hv⟩, hm.2 p h']
  · exact hm

theorem Store.WF_nil (size : Nat) (d : α) : Store.WF size d [] := by simp [Store.WF]

/-- Reading after storing, in a canonical array. -/
theorem Store.read_put [DecidableEq α] (size : Nat) (d : α) (m : Store α) (hm : Store.WF size d m) (a b : Nat)
    (v : α) : Store.read d (Store.put size d m a v) b = if b = a ∧ a < size then v else Store.read d m b := by
  unfold Store.put
  by_cases h : a < size
  · rw [if_pos h, Store.read_write d m hm.1]; simp [h]
  · simp [h]

/-- Reading after storing at an index of a canonical array. -/
theorem Store.read_put_of_lt [DecidableEq α] (size : Nat) (d : α) (m : Store α) (hm : Store.WF size d m)
    (a b : Nat) (v : α) (ha : a < size) :
    Store.read d (Store.put size d m a v) b = if b = a then v else Store.read d m b := by
  simp [Store.read_put size d m hm, ha]

/-- Past the last index a canonical array reads as its all-zero element. -/
theorem Store.read_of_size_le (size : Nat) (d : α) (m : Store α) (hm : Store.WF size d m) (a : Nat)
    (ha : size ≤ a) : Store.read d m a = d := by
  induction m with
  | nil => rfl
  | cons p m ih =>
    have hp := (hm.2 p (by simp)).1
    have hne : a ≠ p.1 := by omega
    rw [Store.read_cons, if_neg hne]
    exact ih ⟨(List.pairwise_cons.1 hm.1).2, fun q hq => hm.2 q (by simp [hq])⟩

/-- Canonical arrays that read alike are equal. -/
theorem Store.ext (size : Nat) (d : α) (m m' : Store α) (hm : Store.WF size d m) (hm' : Store.WF size d m')
    (h : ∀ a, Store.read d m a = Store.read d m' a) : m = m' := by
  induction m generalizing m' with
  | nil =>
    cases m' with
    | nil => rfl
    | cons q m' => exact absurd (by simpa [Store.read_cons] using (h q.1).symm) (hm'.2 q (by simp)).2
  | cons p m ih =>
    obtain ⟨hp, hpm⟩ := List.pairwise_cons.1 hm.1
    cases m' with
    | nil => exact absurd (by simpa [Store.read_cons] using h p.1) (hm.2 p (by simp)).2
    | cons q m' =>
      obtain ⟨hq, hqm⟩ := List.pairwise_cons.1 hm'.1
      have hlow : ∀ {n : Nat} {r : Nat × α} {k : Store α}, (∀ x ∈ k, r.1 < x.1) → n < r.1 →
          Store.read d (r :: k) n = d := fun hk hn => Store.read_of_lt d _ _ (by
        simp only [List.mem_cons]; rintro x (rfl | hx); exacts [hn, hn.trans (hk x hx)])
      have hpq : p.1 = q.1 := by
        rcases Nat.lt_trichotomy p.1 q.1 with hlt | heq | hlt
        · exact absurd (by simpa [Store.read_cons, hlow hq hlt] using h p.1) (hm.2 p (by simp)).2
        · exact heq
        · exact absurd (by simpa [Store.read_cons, hlow hp hlt] using (h q.1).symm) (hm'.2 q (by simp)).2
      have hv : p.2 = q.2 := by simpa [Store.read_cons, hpq] using h p.1
      have hpe : p = q := Prod.ext hpq hv
      subst hpe
      rw [ih m' ⟨hpm, fun x hx => hm.2 x (by simp [hx])⟩ ⟨hqm, fun x hx => hm'.2 x (by simp [hx])⟩]
      intro a
      by_cases ha : a = p.1
      · subst ha; rw [Store.read_of_lt d m _ hp, Store.read_of_lt d m' _ hq]
      · simpa [Store.read_cons, ha] using h a

end Sys2Proof.Machine
end

