-- ==== Sys2Proof/Laws/Memory.lean ====
section
/-! SUPPORT. The laws of the six memories: every operation keeps the canonical form, and reading an
element after storing one. -/

namespace Sys2Proof.Machine

theorem wf_empty : Memory.empty.wf := by decide

/-- Storing an element keeps every memory canonical. -/
theorem wf_setFreq (m : Memory) (h : m.wf) (x : Symbol) (v : Count) : (setFreq m x v).wf :=
  ⟨Store.WF_put _ _ _ h.1 _ _, h.2.1, h.2.2.1, h.2.2.2.1, h.2.2.2.2.1, h.2.2.2.2.2⟩

theorem freqAt_setFreq (m : Memory) (h : m.wf) (x y : Symbol) (v : Count) :
    freqAt (setFreq m x v) y = if y = x then v else freqAt m y := by
  unfold freqAt setFreq
  rw [Store.read_put_of_lt _ _ _ h.1 _ _ _ x.isLt]
  simp [BitVec.toNat_inj]

@[simp] theorem nodeAt_setFreq (m : Memory) (x : Symbol) (v : Count) (y : Nat) :
    nodeAt (setFreq m x v) y = nodeAt m y := rfl
@[simp] theorem cbAt_setFreq (m : Memory) (x : Symbol) (v : Count) (y : Symbol) :
    cbAt (setFreq m x v) y = cbAt m y := rfl
@[simp] theorem symAt_setFreq (m : Memory) (x : Symbol) (v : Count) (y : Nat) :
    symAt (setFreq m x v) y = symAt m y := rfl
@[simp] theorem bitWordAt_setFreq (m : Memory) (x : Symbol) (v : Count) (y : Nat) :
    bitWordAt (setFreq m x v) y = bitWordAt m y := rfl
@[simp] theorem dsymAt_setFreq (m : Memory) (x : Symbol) (v : Count) (y : Nat) :
    dsymAt (setFreq m x v) y = dsymAt m y := rfl

/-- Storing an element keeps every memory canonical. -/
theorem wf_setNode (m : Memory) (h : m.wf) (x : Nat) (v : NodeRec) : (setNode m x v).wf :=
  ⟨h.1, Store.WF_put _ _ _ h.2.1 _ _, h.2.2.1, h.2.2.2.1, h.2.2.2.2.1, h.2.2.2.2.2⟩

theorem nodeAt_setNode (m : Memory) (h : m.wf) (x y : Nat) (v : NodeRec) :
    nodeAt (setNode m x v) y = if y = x ∧ x < Config.nodeMax then v else nodeAt m y :=
  Store.read_put _ _ _ h.2.1 _ _ _

@[simp] theorem freqAt_setNode (m : Memory) (x : Nat) (v : NodeRec) (y : Symbol) :
    freqAt (setNode m x v) y = freqAt m y := rfl
@[simp] theorem cbAt_setNode (m : Memory) (x : Nat) (v : NodeRec) (y : Symbol) :
    cbAt (setNode m x v) y = cbAt m y := rfl
@[simp] theorem symAt_setNode (m : Memory) (x : Nat) (v : NodeRec) (y : Nat) :
    symAt (setNode m x v) y = symAt m y := rfl
@[simp] theorem bitWordAt_setNode (m : Memory) (x : Nat) (v : NodeRec) (y : Nat) :
    bitWordAt (setNode m x v) y = bitWordAt m y := rfl
@[simp] theorem dsymAt_setNode (m : Memory) (x : Nat) (v : NodeRec) (y : Nat) :
    dsymAt (setNode m x v) y = dsymAt m y := rfl

/-- Storing an element keeps every memory canonical. -/
theorem wf_setCb (m : Memory) (h : m.wf) (x : Symbol) (v : CodeEntry) : (setCb m x v).wf :=
  ⟨h.1, h.2.1, Store.WF_put _ _ _ h.2.2.1 _ _, h.2.2.2.1, h.2.2.2.2.1, h.2.2.2.2.2⟩

theorem cbAt_setCb (m : Memory) (h : m.wf) (x y : Symbol) (v : CodeEntry) :
    cbAt (setCb m x v) y = if y = x then v else cbAt m y := by
  unfold cbAt setCb
  rw [Store.read_put_of_lt _ _ _ h.2.2.1 _ _ _ x.isLt]
  simp [BitVec.toNat_inj]

@[simp] theorem freqAt_setCb (m : Memory) (x : Symbol) (v : CodeEntry) (y : Symbol) :
    freqAt (setCb m x v) y = freqAt m y := rfl
@[simp] theorem nodeAt_setCb (m : Memory) (x : Symbol) (v : CodeEntry) (y : Nat) :
    nodeAt (setCb m x v) y = nodeAt m y := rfl
@[simp] theorem symAt_setCb (m : Memory) (x : Symbol) (v : CodeEntry) (y : Nat) :
    symAt (setCb m x v) y = symAt m y := rfl
@[simp] theorem bitWordAt_setCb (m : Memory) (x : Symbol) (v : CodeEntry) (y : Nat) :
    bitWordAt (setCb m x v) y = bitWordAt m y := rfl
@[simp] theorem dsymAt_setCb (m : Memory) (x : Symbol) (v : CodeEntry) (y : Nat) :
    dsymAt (setCb m x v) y = dsymAt m y := rfl

/-- Storing an element keeps every memory canonical. -/
theorem wf_setSym (m : Memory) (h : m.wf) (x : Nat) (v : Symbol) : (setSym m x v).wf :=
  ⟨h.1, h.2.1, h.2.2.1, Store.WF_put _ _ _ h.2.2.2.1 _ _, h.2.2.2.2.1, h.2.2.2.2.2⟩

theorem symAt_setSym (m : Memory) (h : m.wf) (x y : Nat) (v : Symbol) :
    symAt (setSym m x v) y = if y = x ∧ x < Config.nMax then v else symAt m y :=
  Store.read_put _ _ _ h.2.2.2.1 _ _ _

@[simp] theorem freqAt_setSym (m : Memory) (x : Nat) (v : Symbol) (y : Symbol) :
    freqAt (setSym m x v) y = freqAt m y := rfl
@[simp] theorem nodeAt_setSym (m : Memory) (x : Nat) (v : Symbol) (y : Nat) :
    nodeAt (setSym m x v) y = nodeAt m y := rfl
@[simp] theorem cbAt_setSym (m : Memory) (x : Nat) (v : Symbol) (y : Symbol) :
    cbAt (setSym m x v) y = cbAt m y := rfl
@[simp] theorem bitWordAt_setSym (m : Memory) (x : Nat) (v : Symbol) (y : Nat) :
    bitWordAt (setSym m x v) y = bitWordAt m y := rfl
@[simp] theorem dsymAt_setSym (m : Memory) (x : Nat) (v : Symbol) (y : Nat) :
    dsymAt (setSym m x v) y = dsymAt m y := rfl

/-- Storing an element keeps every memory canonical. -/
theorem wf_setBitWord (m : Memory) (h : m.wf) (x : Nat) (v : Word) : (setBitWord m x v).wf :=
  ⟨h.1, h.2.1, h.2.2.1, h.2.2.2.1, Store.WF_put _ _ _ h.2.2.2.2.1 _ _, h.2.2.2.2.2⟩

theorem bitWordAt_setBitWord (m : Memory) (h : m.wf) (x y : Nat) (v : Word) :
    bitWordAt (setBitWord m x v) y = if y = x ∧ x < Config.bitWords then v else bitWordAt m y :=
  Store.read_put _ _ _ h.2.2.2.2.1 _ _ _

@[simp] theorem freqAt_setBitWord (m : Memory) (x : Nat) (v : Word) (y : Symbol) :
    freqAt (setBitWord m x v) y = freqAt m y := rfl
@[simp] theorem nodeAt_setBitWord (m : Memory) (x : Nat) (v : Word) (y : Nat) :
    nodeAt (setBitWord m x v) y = nodeAt m y := rfl
@[simp] theorem cbAt_setBitWord (m : Memory) (x : Nat) (v : Word) (y : Symbol) :
    cbAt (setBitWord m x v) y = cbAt m y := rfl
@[simp] theorem symAt_setBitWord (m : Memory) (x : Nat) (v : Word) (y : Nat) :
    symAt (setBitWord m x v) y = symAt m y := rfl
@[simp] theorem dsymAt_setBitWord (m : Memory) (x : Nat) (v : Word) (y : Nat) :
    dsymAt (setBitWord m x v) y = dsymAt m y := rfl

/-- Storing an element keeps every memory canonical. -/
theorem wf_setDsym (m : Memory) (h : m.wf) (x : Nat) (v : Symbol) : (setDsym m x v).wf :=
  ⟨h.1, h.2.1, h.2.2.1, h.2.2.2.1, h.2.2.2.2.1, Store.WF_put _ _ _ h.2.2.2.2.2 _ _⟩

theorem dsymAt_setDsym (m : Memory) (h : m.wf) (x y : Nat) (v : Symbol) :
    dsymAt (setDsym m x v) y = if y = x ∧ x < Config.nMax then v else dsymAt m y :=
  Store.read_put _ _ _ h.2.2.2.2.2 _ _ _

@[simp] theorem freqAt_setDsym (m : Memory) (x : Nat) (v : Symbol) (y : Symbol) :
    freqAt (setDsym m x v) y = freqAt m y := rfl
@[simp] theorem nodeAt_setDsym (m : Memory) (x : Nat) (v : Symbol) (y : Nat) :
    nodeAt (setDsym m x v) y = nodeAt m y := rfl
@[simp] theorem cbAt_setDsym (m : Memory) (x : Nat) (v : Symbol) (y : Symbol) :
    cbAt (setDsym m x v) y = cbAt m y := rfl
@[simp] theorem symAt_setDsym (m : Memory) (x : Nat) (v : Symbol) (y : Nat) :
    symAt (setDsym m x v) y = symAt m y := rfl
@[simp] theorem bitWordAt_setDsym (m : Memory) (x : Nat) (v : Symbol) (y : Nat) :
    bitWordAt (setDsym m x v) y = bitWordAt m y := rfl

/-- Emptying an artifact keeps every memory canonical. -/
theorem wf_emptyArtifact (a : Artifact) (s : State) (h : s.mem.wf) : (emptyArtifact a s).mem.wf := by
  obtain ⟨h1, h2, h3, h4, h5, h6⟩ := h
  cases a
  · exact ⟨Store.WF_nil _ _, h2, h3, h4, h5, h6⟩
  · exact ⟨h1, Store.WF_nil _ _, h3, h4, h5, h6⟩
  · exact ⟨h1, h2, Store.WF_nil _ _, h4, h5, h6⟩
  · exact ⟨h1, h2, h3, Store.WF_nil _ _, h5, h6⟩
  · exact ⟨h1, h2, h3, h4, Store.WF_nil _ _, h6⟩
  · exact ⟨h1, h2, h3, h4, h5, Store.WF_nil _ _⟩

theorem wf_emptyDest (d : Option Artifact) (s : State) (h : s.mem.wf) : (emptyDest d s).mem.wf := by
  cases d with
  | none => exact h
  | some a => exact wf_emptyArtifact a s h

/-- Fault entry keeps every memory canonical. -/
theorem wf_raiseFault (d : Option Artifact) (f : CmdFault) (sub : BitVec 4) (x : Symbol) (i : BitVec 16) (s : State)
    (h : s.mem.wf) : (raiseFault d f sub x i s).mem.wf := wf_emptyDest d s h

end Sys2Proof.Machine
end

