-- ==== Sys2Proof/Laws/PerInstr.lean ====
section
/-! SUPPORT. A statement about every command as syntax: its word has well-formed fields and selects its row
of the opcode table (30_encoding.md rules R101 and R104). -/

namespace Sys2Proof.Laws.TableRow

/-- The fields of the command's word are its own and well-formed, and the word matches the command's row. -/
def Statement (i : Instr) : Prop :=
  fieldsOf (encode i) = i.fields ∧ i.wf = true ∧ encode i &&& tableMask i = tableMatch i

theorem nop : Statement .nop := by unfold Statement; decide
theorem analyze : Statement .analyze := by unfold Statement; decide
theorem build : Statement .build := by unfold Statement; decide
theorem derive : Statement .derive := by unfold Statement; decide
theorem encode : Statement .encode := by unfold Statement; decide
theorem decode : Statement .decode := by unfold Statement; decide
theorem clear (mask : BitVec 6) : Statement (.clear mask) := by unfold Statement; revert mask; decide

end Sys2Proof.Laws.TableRow
end

