-- ==== Sys2Proof/Laws/Queue.lean ====
section
/-! SUPPORT. The laws of the two hidden arrays: reading the heap after storing and swapping (R172, R174),
the key order (R173), and the traversal stack (R203). -/

namespace Sys2Proof.Machine

/-- The key order on numbers (R173). -/
theorem keyLt_iff (m : Memory) (a b : NodeIdx) : keyLt m a b = true ↔
    (nodeAt m a.toNat).weight.toNat < (nodeAt m b.toNat).weight.toNat ∨
      ((nodeAt m a.toNat).weight.toNat = (nodeAt m b.toNat).weight.toNat ∧ a.toNat < b.toNat) := by
  simp [keyLt, BitVec.lt_def, BitVec.toNat_inj]

/-- The keys are linearly ordered: of two different indices one comes first (R173). -/
theorem keyLt_total (m : Memory) (a b : NodeIdx) (h : a ≠ b) : keyLt m a b = true ∨ keyLt m b a = true := by
  have h' : a.toNat ≠ b.toNat := fun e => h (BitVec.toNat_inj.1 e)
  rw [keyLt_iff, keyLt_iff]; omega

theorem keyLt_irrefl (m : Memory) (a : NodeIdx) : ¬ keyLt m a a = true := by rw [keyLt_iff]; omega

theorem keyLt_trans (m : Memory) (a b c : NodeIdx) (h : keyLt m a b = true) (h' : keyLt m b c = true) :
    keyLt m a c = true := by
  rw [keyLt_iff] at *; omega

theorem wf_setHeap (h : Store NodeIdx) (hh : Store.WF Config.kMax (0 : NodeIdx) h) (c : Nat) (n : NodeIdx) :
    Store.WF Config.kMax (0 : NodeIdx) (setHeap h c n) := Store.WF_put _ _ _ hh _ _

theorem heapAt_setHeap (h : Store NodeIdx) (hh : Store.WF Config.kMax (0 : NodeIdx) h) (c d : Nat) (n : NodeIdx) :
    heapAt (setHeap h c n) d = if d = c ∧ c < Config.kMax then n else heapAt h d := Store.read_put _ _ _ hh _ _ _

theorem wf_swapHeap (h : Store NodeIdx) (hh : Store.WF Config.kMax (0 : NodeIdx) h) (a b : Nat) :
    Store.WF Config.kMax (0 : NodeIdx) (swapHeap h a b) := wf_setHeap _ (wf_setHeap _ hh _ _) _ _

/-- Swapping two entries of the heap array exchanges them and leaves the rest. -/
theorem heapAt_swapHeap (h : Store NodeIdx) (hh : Store.WF Config.kMax (0 : NodeIdx) h) (a b d : Nat)
    (ha : a < Config.kMax) (hb : b < Config.kMax) :
    heapAt (swapHeap h a b) d = if d = b then heapAt h a else if d = a then heapAt h b else heapAt h d := by
  unfold swapHeap
  rw [heapAt_setHeap _ (wf_setHeap _ hh _ _), heapAt_setHeap _ hh]
  simp [ha, hb]

/-- Rising keeps the array canonical. -/
theorem wf_siftUp (m : Memory) (fuel c : Nat) (h : Store NodeIdx) (hh : Store.WF Config.kMax (0 : NodeIdx) h) :
    Store.WF Config.kMax (0 : NodeIdx) (siftUp m fuel c h) := by
  induction fuel generalizing c h with
  | zero => exact hh
  | succ fuel ih =>
    unfold siftUp
    dsimp only
    split_ifs
    · exact hh
    · exact ih _ _ (wf_swapHeap _ hh _ _)
    · exact hh

/-- Sinking keeps the array canonical. -/
theorem wf_siftDown (m : Memory) (cnt fuel c : Nat) (h : Store NodeIdx)
    (hh : Store.WF Config.kMax (0 : NodeIdx) h) : Store.WF Config.kMax (0 : NodeIdx) (siftDown m cnt fuel c h) := by
  induction fuel generalizing c h with
  | zero => exact hh
  | succ fuel ih =>
    unfold siftDown
    dsimp only
    split_ifs
    · exact hh
    · exact ih _ _ (wf_swapHeap _ hh _ _)

/-- `insert` keeps the array canonical and counts one more entry (R172). -/
theorem wf_heapInsert (m : Memory) (n : NodeIdx) (w : Work) (h : Store.WF Config.kMax (0 : NodeIdx) w.heap) :
    Store.WF Config.kMax (0 : NodeIdx) (heapInsert m n w).heap := wf_siftUp _ _ _ _ (wf_setHeap _ h _ _)

@[simp] theorem heapInsert_heapCnt (m : Memory) (n : NodeIdx) (w : Work) :
    (heapInsert m n w).heapCnt = w.heapCnt + 1 := rfl

/-- `extract_min` keeps the array canonical, returns the entry at the top and counts one less (R174). -/
theorem wf_heapExtract (m : Memory) (w : Work) (h : Store.WF Config.kMax (0 : NodeIdx) w.heap) :
    Store.WF Config.kMax (0 : NodeIdx) (heapExtract m w).2.heap := by
  unfold heapExtract
  dsimp only
  split_ifs
  · exact wf_siftDown _ _ _ _ _ (wf_setHeap _ h _ _)
  · exact h

@[simp] theorem heapExtract_fst (m : Memory) (w : Work) : (heapExtract m w).1 = heapAt w.heap 0 := rfl
@[simp] theorem heapExtract_heapCnt (m : Memory) (w : Work) : (heapExtract m w).2.heapCnt = w.heapCnt - 1 := rfl

/-- A queue operation touches nothing but the heap array and its count. -/
theorem heapInsert_rest (m : Memory) (n : NodeIdx) (w : Work) :
    heapInsert m n w = { w with heap := (heapInsert m n w).heap, heapCnt := (heapInsert m n w).heapCnt } := rfl
theorem heapExtract_rest (m : Memory) (w : Work) :
    (heapExtract m w).2 = { w with heap := (heapExtract m w).2.heap, heapCnt := (heapExtract m w).2.heapCnt } := rfl

/-! The traversal stack. -/

theorem wf_stkPush (n : NodeIdx) (d : CodeLen) (p : CodeVec) (w : Work)
    (h : Store.WF Config.kMax StkEntry.zero w.stk) : Store.WF Config.kMax StkEntry.zero (stkPush n d p w).stk :=
  Store.WF_put _ _ _ h _ _

@[simp] theorem stkPush_sp (n : NodeIdx) (d : CodeLen) (p : CodeVec) (w : Work) : (stkPush n d p w).sp = w.sp + 1 := rfl

/-- The stack after a push: the new entry on top, the rest below it. -/
theorem stkAt_stkPush (n : NodeIdx) (d : CodeLen) (p : CodeVec) (w : Work)
    (h : Store.WF Config.kMax StkEntry.zero w.stk) (hs : w.sp < Config.kMax) (c : Nat) :
    stkAt (stkPush n d p w) c = if c = w.sp then ⟨n, d, p⟩ else stkAt w c :=
  Store.read_put_of_lt _ _ _ h _ _ _ hs

@[simp] theorem stkPop_fst (w : Work) : (stkPop w).1 = stkAt w (w.sp - 1) := rfl
@[simp] theorem stkPop_sp (w : Work) : (stkPop w).2.sp = w.sp - 1 := rfl
@[simp] theorem stkPop_stk (w : Work) : (stkPop w).2.stk = w.stk := rfl

end Sys2Proof.Machine
end

