-- ==== Sys2Proof/Laws/Reference.lean ====
section
/-! SUPPORT. Lengths of the reference readings in Safety.lean. -/

namespace Sys2Proof.Machine

@[simp] theorem codeBits_length (c : CodeEntry) : (codeBits c).length = c.len.toNat := by simp [codeBits]

/-- The length of an encoding is the sum of its code words' lengths. -/
theorem encodeList_length (m : Memory) (xs : List Symbol) :
    (encodeList m xs).length = (xs.map fun x => (cbAt m x).len.toNat).sum := by
  simp [encodeList, List.length_flatMap]

@[simp] theorem inputSymbols_length (s : State) : (inputSymbols s).length = s.symlen.toNat := by simp [inputSymbols]

@[simp] theorem streamBits_length (s : State) : (streamBits s).length = s.bitlen.toNat := by simp [streamBits]

@[simp] theorem outputSymbols_length (s : State) : (outputSymbols s).length = s.dsymlen.toNat := by
  simp [outputSymbols]

end Sys2Proof.Machine
end

