-- ==== Sys2Proof/Laws/State.lean ====
section
/-! SUPPORT. What each shared update of the state does to each field, so that no later proof unfolds a
record update. -/

namespace Sys2Proof.Machine

/-! Acceptance (R132). -/

@[simp] theorem acceptCommand_ie (w : Word) (s : State) :
    (acceptCommand w s).ie = s.ie := rfl
@[simp] theorem acceptCommand_cmd (w : Word) (s : State) :
    (acceptCommand w s).cmd = w := rfl
@[simp] theorem acceptCommand_busy (w : Word) (s : State) :
    (acceptCommand w s).busy = true := rfl
@[simp] theorem acceptCommand_done (w : Word) (s : State) :
    (acceptCommand w s).done = false := rfl
@[simp] theorem acceptCommand_treeValid (w : Word) (s : State) :
    (acceptCommand w s).treeValid = s.treeValid := rfl
@[simp] theorem acceptCommand_err (w : Word) (s : State) :
    (acceptCommand w s).err = 0 := rfl
@[simp] theorem acceptCommand_errinfo (w : Word) (s : State) :
    (acceptCommand w s).errinfo = 0 := rfl
@[simp] theorem acceptCommand_errlog (w : Word) (s : State) :
    (acceptCommand w s).errlog = s.errlog := rfl
@[simp] theorem acceptCommand_symlen (w : Word) (s : State) :
    (acceptCommand w s).symlen = s.symlen := rfl
@[simp] theorem acceptCommand_bitlen (w : Word) (s : State) :
    (acceptCommand w s).bitlen = s.bitlen := rfl
@[simp] theorem acceptCommand_dsymlen (w : Word) (s : State) :
    (acceptCommand w s).dsymlen = s.dsymlen := rfl
@[simp] theorem acceptCommand_root (w : Word) (s : State) :
    (acceptCommand w s).root = s.root := rfl
@[simp] theorem acceptCommand_nnodes (w : Word) (s : State) :
    (acceptCommand w s).nnodes = s.nnodes := rfl
@[simp] theorem acceptCommand_nleaves (w : Word) (s : State) :
    (acceptCommand w s).nleaves = s.nleaves := rfl
@[simp] theorem acceptCommand_mem (w : Word) (s : State) :
    (acceptCommand w s).mem = s.mem := rfl
@[simp] theorem acceptCommand_phase (w : Word) (s : State) :
    (acceptCommand w s).phase = .dispatch := rfl
@[simp] theorem acceptCommand_op (w : Word) (s : State) :
    (acceptCommand w s).op = s.op := rfl
@[simp] theorem acceptCommand_opmask (w : Word) (s : State) :
    (acceptCommand w s).opmask = s.opmask := rfl
@[simp] theorem acceptCommand_work (w : Word) (s : State) :
    (acceptCommand w s).work = s.work := rfl
@[simp] theorem acceptCommand_schedule (w : Word) (s : State) :
    (acceptCommand w s).schedule = s.schedule := rfl
@[simp] theorem acceptCommand_response (w : Word) (s : State) :
    (acceptCommand w s).response = s.response := rfl

/-! Dispatch (R133). -/

@[simp] theorem dispatchTo_ie (o : BitVec 4) (k : BitVec 6) (p : Phase) (s : State) :
    (dispatchTo o k p s).ie = s.ie := rfl
@[simp] theorem dispatchTo_cmd (o : BitVec 4) (k : BitVec 6) (p : Phase) (s : State) :
    (dispatchTo o k p s).cmd = s.cmd := rfl
@[simp] theorem dispatchTo_busy (o : BitVec 4) (k : BitVec 6) (p : Phase) (s : State) :
    (dispatchTo o k p s).busy = s.busy := rfl
@[simp] theorem dispatchTo_done (o : BitVec 4) (k : BitVec 6) (p : Phase) (s : State) :
    (dispatchTo o k p s).done = s.done := rfl
@[simp] theorem dispatchTo_treeValid (o : BitVec 4) (k : BitVec 6) (p : Phase) (s : State) :
    (dispatchTo o k p s).treeValid = s.treeValid := rfl
@[simp] theorem dispatchTo_err (o : BitVec 4) (k : BitVec 6) (p : Phase) (s : State) :
    (dispatchTo o k p s).err = s.err := rfl
@[simp] theorem dispatchTo_errinfo (o : BitVec 4) (k : BitVec 6) (p : Phase) (s : State) :
    (dispatchTo o k p s).errinfo = s.errinfo := rfl
@[simp] theorem dispatchTo_errlog (o : BitVec 4) (k : BitVec 6) (p : Phase) (s : State) :
    (dispatchTo o k p s).errlog = s.errlog := rfl
@[simp] theorem dispatchTo_symlen (o : BitVec 4) (k : BitVec 6) (p : Phase) (s : State) :
    (dispatchTo o k p s).symlen = s.symlen := rfl
@[simp] theorem dispatchTo_bitlen (o : BitVec 4) (k : BitVec 6) (p : Phase) (s : State) :
    (dispatchTo o k p s).bitlen = s.bitlen := rfl
@[simp] theorem dispatchTo_dsymlen (o : BitVec 4) (k : BitVec 6) (p : Phase) (s : State) :
    (dispatchTo o k p s).dsymlen = s.dsymlen := rfl
@[simp] theorem dispatchTo_root (o : BitVec 4) (k : BitVec 6) (p : Phase) (s : State) :
    (dispatchTo o k p s).root = s.root := rfl
@[simp] theorem dispatchTo_nnodes (o : BitVec 4) (k : BitVec 6) (p : Phase) (s : State) :
    (dispatchTo o k p s).nnodes = s.nnodes := rfl
@[simp] theorem dispatchTo_nleaves (o : BitVec 4) (k : BitVec 6) (p : Phase) (s : State) :
    (dispatchTo o k p s).nleaves = s.nleaves := rfl
@[simp] theorem dispatchTo_mem (o : BitVec 4) (k : BitVec 6) (p : Phase) (s : State) :
    (dispatchTo o k p s).mem = s.mem := rfl
@[simp] theorem dispatchTo_phase (o : BitVec 4) (k : BitVec 6) (p : Phase) (s : State) :
    (dispatchTo o k p s).phase = p := rfl
@[simp] theorem dispatchTo_op (o : BitVec 4) (k : BitVec 6) (p : Phase) (s : State) :
    (dispatchTo o k p s).op = o := rfl
@[simp] theorem dispatchTo_opmask (o : BitVec 4) (k : BitVec 6) (p : Phase) (s : State) :
    (dispatchTo o k p s).opmask = k := rfl
@[simp] theorem dispatchTo_work (o : BitVec 4) (k : BitVec 6) (p : Phase) (s : State) :
    (dispatchTo o k p s).work = s.work := rfl
@[simp] theorem dispatchTo_schedule (o : BitVec 4) (k : BitVec 6) (p : Phase) (s : State) :
    (dispatchTo o k p s).schedule = s.schedule := rfl
@[simp] theorem dispatchTo_response (o : BitVec 4) (k : BitVec 6) (p : Phase) (s : State) :
    (dispatchTo o k p s).response = s.response := rfl

/-! Completion (R134). -/

@[simp] theorem completeCommand_ie (s : State) :
    (completeCommand s).ie = s.ie := rfl
@[simp] theorem completeCommand_cmd (s : State) :
    (completeCommand s).cmd = s.cmd := rfl
@[simp] theorem completeCommand_busy (s : State) :
    (completeCommand s).busy = false := rfl
@[simp] theorem completeCommand_done (s : State) :
    (completeCommand s).done = true := rfl
@[simp] theorem completeCommand_treeValid (s : State) :
    (completeCommand s).treeValid = s.treeValid := rfl
@[simp] theorem completeCommand_err (s : State) :
    (completeCommand s).err = s.err := rfl
@[simp] theorem completeCommand_errinfo (s : State) :
    (completeCommand s).errinfo = s.errinfo := rfl
@[simp] theorem completeCommand_errlog (s : State) :
    (completeCommand s).errlog = s.errlog := rfl
@[simp] theorem completeCommand_symlen (s : State) :
    (completeCommand s).symlen = s.symlen := rfl
@[simp] theorem completeCommand_bitlen (s : State) :
    (completeCommand s).bitlen = s.bitlen := rfl
@[simp] theorem completeCommand_dsymlen (s : State) :
    (completeCommand s).dsymlen = s.dsymlen := rfl
@[simp] theorem completeCommand_root (s : State) :
    (completeCommand s).root = s.root := rfl
@[simp] theorem completeCommand_nnodes (s : State) :
    (completeCommand s).nnodes = s.nnodes := rfl
@[simp] theorem completeCommand_nleaves (s : State) :
    (completeCommand s).nleaves = s.nleaves := rfl
@[simp] theorem completeCommand_mem (s : State) :
    (completeCommand s).mem = s.mem := rfl
@[simp] theorem completeCommand_phase (s : State) :
    (completeCommand s).phase = .idle := rfl
@[simp] theorem completeCommand_op (s : State) :
    (completeCommand s).op = s.op := rfl
@[simp] theorem completeCommand_opmask (s : State) :
    (completeCommand s).opmask = s.opmask := rfl
@[simp] theorem completeCommand_work (s : State) :
    (completeCommand s).work = s.work := rfl
@[simp] theorem completeCommand_schedule (s : State) :
    (completeCommand s).schedule = s.schedule := rfl
@[simp] theorem completeCommand_response (s : State) :
    (completeCommand s).response = s.response := rfl

/-! Emptying an artifact leaves every register that is not the artifact's (R137). -/

@[simp] theorem emptyArtifact_ie (a : Artifact) (s : State) :
    (emptyArtifact a s).ie = s.ie := by cases a <;> rfl
@[simp] theorem emptyArtifact_cmd (a : Artifact) (s : State) :
    (emptyArtifact a s).cmd = s.cmd := by cases a <;> rfl
@[simp] theorem emptyArtifact_busy (a : Artifact) (s : State) :
    (emptyArtifact a s).busy = s.busy := by cases a <;> rfl
@[simp] theorem emptyArtifact_done (a : Artifact) (s : State) :
    (emptyArtifact a s).done = s.done := by cases a <;> rfl
@[simp] theorem emptyArtifact_err (a : Artifact) (s : State) :
    (emptyArtifact a s).err = s.err := by cases a <;> rfl
@[simp] theorem emptyArtifact_errinfo (a : Artifact) (s : State) :
    (emptyArtifact a s).errinfo = s.errinfo := by cases a <;> rfl
@[simp] theorem emptyArtifact_errlog (a : Artifact) (s : State) :
    (emptyArtifact a s).errlog = s.errlog := by cases a <;> rfl
@[simp] theorem emptyArtifact_phase (a : Artifact) (s : State) :
    (emptyArtifact a s).phase = s.phase := by cases a <;> rfl
@[simp] theorem emptyArtifact_op (a : Artifact) (s : State) :
    (emptyArtifact a s).op = s.op := by cases a <;> rfl
@[simp] theorem emptyArtifact_opmask (a : Artifact) (s : State) :
    (emptyArtifact a s).opmask = s.opmask := by cases a <;> rfl
@[simp] theorem emptyArtifact_work (a : Artifact) (s : State) :
    (emptyArtifact a s).work = s.work := by cases a <;> rfl
@[simp] theorem emptyArtifact_schedule (a : Artifact) (s : State) :
    (emptyArtifact a s).schedule = s.schedule := by cases a <;> rfl
@[simp] theorem emptyArtifact_response (a : Artifact) (s : State) :
    (emptyArtifact a s).response = s.response := by cases a <;> rfl
@[simp] theorem emptyDest_ie (d : Option Artifact) (s : State) :
    (emptyDest d s).ie = s.ie := by cases d <;> simp [emptyDest]
@[simp] theorem emptyDest_cmd (d : Option Artifact) (s : State) :
    (emptyDest d s).cmd = s.cmd := by cases d <;> simp [emptyDest]
@[simp] theorem emptyDest_busy (d : Option Artifact) (s : State) :
    (emptyDest d s).busy = s.busy := by cases d <;> simp [emptyDest]
@[simp] theorem emptyDest_done (d : Option Artifact) (s : State) :
    (emptyDest d s).done = s.done := by cases d <;> simp [emptyDest]
@[simp] theorem emptyDest_err (d : Option Artifact) (s : State) :
    (emptyDest d s).err = s.err := by cases d <;> simp [emptyDest]
@[simp] theorem emptyDest_errinfo (d : Option Artifact) (s : State) :
    (emptyDest d s).errinfo = s.errinfo := by cases d <;> simp [emptyDest]
@[simp] theorem emptyDest_errlog (d : Option Artifact) (s : State) :
    (emptyDest d s).errlog = s.errlog := by cases d <;> simp [emptyDest]
@[simp] theorem emptyDest_phase (d : Option Artifact) (s : State) :
    (emptyDest d s).phase = s.phase := by cases d <;> simp [emptyDest]
@[simp] theorem emptyDest_op (d : Option Artifact) (s : State) :
    (emptyDest d s).op = s.op := by cases d <;> simp [emptyDest]
@[simp] theorem emptyDest_opmask (d : Option Artifact) (s : State) :
    (emptyDest d s).opmask = s.opmask := by cases d <;> simp [emptyDest]
@[simp] theorem emptyDest_work (d : Option Artifact) (s : State) :
    (emptyDest d s).work = s.work := by cases d <;> simp [emptyDest]
@[simp] theorem emptyDest_schedule (d : Option Artifact) (s : State) :
    (emptyDest d s).schedule = s.schedule := by cases d <;> simp [emptyDest]
@[simp] theorem emptyDest_response (d : Option Artifact) (s : State) :
    (emptyDest d s).response = s.response := by cases d <;> simp [emptyDest]

/-! Fault entry (R278). -/

@[simp] theorem raiseFault_busy (d : Option Artifact) (f : CmdFault) (sub : BitVec 4) (x : Symbol) (i : BitVec 16) (s : State) :
    (raiseFault d f sub x i s).busy = false := rfl
@[simp] theorem raiseFault_done (d : Option Artifact) (f : CmdFault) (sub : BitVec 4) (x : Symbol) (i : BitVec 16) (s : State) :
    (raiseFault d f sub x i s).done = true := rfl
@[simp] theorem raiseFault_err (d : Option Artifact) (f : CmdFault) (sub : BitVec 4) (x : Symbol) (i : BitVec 16) (s : State) :
    (raiseFault d f sub x i s).err = faultCode f := rfl
@[simp] theorem raiseFault_errinfo (d : Option Artifact) (f : CmdFault) (sub : BitVec 4) (x : Symbol) (i : BitVec 16) (s : State) :
    (raiseFault d f sub x i s).errinfo = packErrinfo (s.cmd.extractLsb' 0 4) sub x i := rfl
@[simp] theorem raiseFault_errlog (d : Option Artifact) (f : CmdFault) (sub : BitVec 4) (x : Symbol) (i : BitVec 16) (s : State) :
    (raiseFault d f sub x i s).errlog = logFault s.errlog f := rfl
@[simp] theorem raiseFault_phase (d : Option Artifact) (f : CmdFault) (sub : BitVec 4) (x : Symbol) (i : BitVec 16) (s : State) :
    (raiseFault d f sub x i s).phase = .idle := rfl
@[simp] theorem raiseFault_ie (d : Option Artifact) (f : CmdFault) (sub : BitVec 4) (x : Symbol) (i : BitVec 16) (s : State) :
    (raiseFault d f sub x i s).ie = s.ie := by simp [raiseFault]
@[simp] theorem raiseFault_cmd (d : Option Artifact) (f : CmdFault) (sub : BitVec 4) (x : Symbol) (i : BitVec 16) (s : State) :
    (raiseFault d f sub x i s).cmd = s.cmd := by simp [raiseFault]
@[simp] theorem raiseFault_op (d : Option Artifact) (f : CmdFault) (sub : BitVec 4) (x : Symbol) (i : BitVec 16) (s : State) :
    (raiseFault d f sub x i s).op = s.op := by simp [raiseFault]
@[simp] theorem raiseFault_opmask (d : Option Artifact) (f : CmdFault) (sub : BitVec 4) (x : Symbol) (i : BitVec 16) (s : State) :
    (raiseFault d f sub x i s).opmask = s.opmask := by simp [raiseFault]
@[simp] theorem raiseFault_work (d : Option Artifact) (f : CmdFault) (sub : BitVec 4) (x : Symbol) (i : BitVec 16) (s : State) :
    (raiseFault d f sub x i s).work = s.work := by simp [raiseFault]
@[simp] theorem raiseFault_schedule (d : Option Artifact) (f : CmdFault) (sub : BitVec 4) (x : Symbol) (i : BitVec 16) (s : State) :
    (raiseFault d f sub x i s).schedule = s.schedule := by simp [raiseFault]
@[simp] theorem raiseFault_response (d : Option Artifact) (f : CmdFault) (sub : BitVec 4) (x : Symbol) (i : BitVec 16) (s : State) :
    (raiseFault d f sub x i s).response = s.response := by simp [raiseFault]
@[simp] theorem raiseFault_treeValid (d : Option Artifact) (f : CmdFault) (sub : BitVec 4) (x : Symbol) (i : BitVec 16) (s : State) :
    (raiseFault d f sub x i s).treeValid = (emptyDest d s).treeValid := rfl
@[simp] theorem raiseFault_symlen (d : Option Artifact) (f : CmdFault) (sub : BitVec 4) (x : Symbol) (i : BitVec 16) (s : State) :
    (raiseFault d f sub x i s).symlen = (emptyDest d s).symlen := rfl
@[simp] theorem raiseFault_bitlen (d : Option Artifact) (f : CmdFault) (sub : BitVec 4) (x : Symbol) (i : BitVec 16) (s : State) :
    (raiseFault d f sub x i s).bitlen = (emptyDest d s).bitlen := rfl
@[simp] theorem raiseFault_dsymlen (d : Option Artifact) (f : CmdFault) (sub : BitVec 4) (x : Symbol) (i : BitVec 16) (s : State) :
    (raiseFault d f sub x i s).dsymlen = (emptyDest d s).dsymlen := rfl
@[simp] theorem raiseFault_root (d : Option Artifact) (f : CmdFault) (sub : BitVec 4) (x : Symbol) (i : BitVec 16) (s : State) :
    (raiseFault d f sub x i s).root = (emptyDest d s).root := rfl
@[simp] theorem raiseFault_nnodes (d : Option Artifact) (f : CmdFault) (sub : BitVec 4) (x : Symbol) (i : BitVec 16) (s : State) :
    (raiseFault d f sub x i s).nnodes = (emptyDest d s).nnodes := rfl
@[simp] theorem raiseFault_nleaves (d : Option Artifact) (f : CmdFault) (sub : BitVec 4) (x : Symbol) (i : BitVec 16) (s : State) :
    (raiseFault d f sub x i s).nleaves = (emptyDest d s).nleaves := rfl
@[simp] theorem raiseFault_mem (d : Option Artifact) (f : CmdFault) (sub : BitVec 4) (x : Symbol) (i : BitVec 16) (s : State) :
    (raiseFault d f sub x i s).mem = (emptyDest d s).mem := rfl

/-! Storing an element of a memory (R80). -/

@[simp] theorem setFreq_freq (m : Memory) (x : Symbol) (c : Count) :
    (setFreq m x c).freq = Store.put Config.kMax 0 m.freq x.toNat c := rfl
@[simp] theorem setFreq_node (m : Memory) (x : Symbol) (c : Count) :
    (setFreq m x c).node = m.node := rfl
@[simp] theorem setFreq_cb (m : Memory) (x : Symbol) (c : Count) :
    (setFreq m x c).cb = m.cb := rfl
@[simp] theorem setFreq_symbuf (m : Memory) (x : Symbol) (c : Count) :
    (setFreq m x c).symbuf = m.symbuf := rfl
@[simp] theorem setFreq_bitbuf (m : Memory) (x : Symbol) (c : Count) :
    (setFreq m x c).bitbuf = m.bitbuf := rfl
@[simp] theorem setFreq_dsym (m : Memory) (x : Symbol) (c : Count) :
    (setFreq m x c).dsym = m.dsym := rfl
@[simp] theorem setNode_freq (m : Memory) (n : Nat) (r : NodeRec) :
    (setNode m n r).freq = m.freq := rfl
@[simp] theorem setNode_node (m : Memory) (n : Nat) (r : NodeRec) :
    (setNode m n r).node = Store.put Config.nodeMax NodeRec.zero m.node n r := rfl
@[simp] theorem setNode_cb (m : Memory) (n : Nat) (r : NodeRec) :
    (setNode m n r).cb = m.cb := rfl
@[simp] theorem setNode_symbuf (m : Memory) (n : Nat) (r : NodeRec) :
    (setNode m n r).symbuf = m.symbuf := rfl
@[simp] theorem setNode_bitbuf (m : Memory) (n : Nat) (r : NodeRec) :
    (setNode m n r).bitbuf = m.bitbuf := rfl
@[simp] theorem setNode_dsym (m : Memory) (n : Nat) (r : NodeRec) :
    (setNode m n r).dsym = m.dsym := rfl
@[simp] theorem setCb_freq (m : Memory) (x : Symbol) (c : CodeEntry) :
    (setCb m x c).freq = m.freq := rfl
@[simp] theorem setCb_node (m : Memory) (x : Symbol) (c : CodeEntry) :
    (setCb m x c).node = m.node := rfl
@[simp] theorem setCb_cb (m : Memory) (x : Symbol) (c : CodeEntry) :
    (setCb m x c).cb = Store.put Config.kMax CodeEntry.zero m.cb x.toNat c := rfl
@[simp] theorem setCb_symbuf (m : Memory) (x : Symbol) (c : CodeEntry) :
    (setCb m x c).symbuf = m.symbuf := rfl
@[simp] theorem setCb_bitbuf (m : Memory) (x : Symbol) (c : CodeEntry) :
    (setCb m x c).bitbuf = m.bitbuf := rfl
@[simp] theorem setCb_dsym (m : Memory) (x : Symbol) (c : CodeEntry) :
    (setCb m x c).dsym = m.dsym := rfl
@[simp] theorem setSym_freq (m : Memory) (j : Nat) (x : Symbol) :
    (setSym m j x).freq = m.freq := rfl
@[simp] theorem setSym_node (m : Memory) (j : Nat) (x : Symbol) :
    (setSym m j x).node = m.node := rfl
@[simp] theorem setSym_cb (m : Memory) (j : Nat) (x : Symbol) :
    (setSym m j x).cb = m.cb := rfl
@[simp] theorem setSym_symbuf (m : Memory) (j : Nat) (x : Symbol) :
    (setSym m j x).symbuf = Store.put Config.nMax 0 m.symbuf j x := rfl
@[simp] theorem setSym_bitbuf (m : Memory) (j : Nat) (x : Symbol) :
    (setSym m j x).bitbuf = m.bitbuf := rfl
@[simp] theorem setSym_dsym (m : Memory) (j : Nat) (x : Symbol) :
    (setSym m j x).dsym = m.dsym := rfl
@[simp] theorem setDsym_freq (m : Memory) (e : Nat) (x : Symbol) :
    (setDsym m e x).freq = m.freq := rfl
@[simp] theorem setDsym_node (m : Memory) (e : Nat) (x : Symbol) :
    (setDsym m e x).node = m.node := rfl
@[simp] theorem setDsym_cb (m : Memory) (e : Nat) (x : Symbol) :
    (setDsym m e x).cb = m.cb := rfl
@[simp] theorem setDsym_symbuf (m : Memory) (e : Nat) (x : Symbol) :
    (setDsym m e x).symbuf = m.symbuf := rfl
@[simp] theorem setDsym_bitbuf (m : Memory) (e : Nat) (x : Symbol) :
    (setDsym m e x).bitbuf = m.bitbuf := rfl
@[simp] theorem setDsym_dsym (m : Memory) (e : Nat) (x : Symbol) :
    (setDsym m e x).dsym = Store.put Config.nMax 0 m.dsym e x := rfl
@[simp] theorem setBitWord_freq (m : Memory) (w : Nat) (v : Word) :
    (setBitWord m w v).freq = m.freq := rfl
@[simp] theorem setBitWord_node (m : Memory) (w : Nat) (v : Word) :
    (setBitWord m w v).node = m.node := rfl
@[simp] theorem setBitWord_cb (m : Memory) (w : Nat) (v : Word) :
    (setBitWord m w v).cb = m.cb := rfl
@[simp] theorem setBitWord_symbuf (m : Memory) (w : Nat) (v : Word) :
    (setBitWord m w v).symbuf = m.symbuf := rfl
@[simp] theorem setBitWord_bitbuf (m : Memory) (w : Nat) (v : Word) :
    (setBitWord m w v).bitbuf = Store.put Config.bitWords 0 m.bitbuf w v := rfl
@[simp] theorem setBitWord_dsym (m : Memory) (w : Nat) (v : Word) :
    (setBitWord m w v).dsym = m.dsym := rfl

end Sys2Proof.Machine
end

