-- ==== Sys2Proof/Laws/Run.lean ====
section
/-! SUPPORT. Running a command's phases: what a whole command that answers a next state has done, that a
command's own step is the engine's step in its phases, and the induction over its steps. -/

namespace Sys2Proof.Machine

theorem Phase.isIdle_iff (p : Phase) : p.isIdle = true ↔ p = .idle := by cases p <;> simp [Phase.isIdle]

theorem runToIdle_zero (f : State → State) (s : State) : runToIdle f 0 s = s := rfl

theorem runToIdle_idle (f : State → State) (n : Nat) (s : State) (h : s.phase = .idle) : runToIdle f n s = s := by
  cases n <;> simp [runToIdle, h, Phase.isIdle]

theorem runToIdle_busy (f : State → State) (n : Nat) (s : State) (h : s.phase ≠ .idle) :
    runToIdle f (n + 1) s = runToIdle f n (f s) := by
  have : ¬ s.phase.isIdle = true := fun hi => h ((Phase.isIdle_iff _).1 hi)
  simp [runToIdle, this]

/-- What every step of a run keeps holds at its end. -/
theorem runToIdle_keeps (f : State → State) (P : State → Prop) (hf : ∀ s, s.phase ≠ .idle → P s → P (f s)) (n : Nat)
    (s : State) (h : P s) : P (runToIdle f n s) := by
  induction n generalizing s with
  | zero => exact h
  | succ n ih =>
    by_cases hs : s.phase = .idle
    · rwa [runToIdle_idle f _ s hs]
    · rw [runToIdle_busy f n s hs]
      exact ih _ (hf s hs h)

/-- A run is some number of its steps, none of them taken from the idle engine. -/
theorem runToIdle_eq_iterate (f : State → State) (n : Nat) (s : State) :
    ∃ k ≤ n, runToIdle f n s = f^[k] s ∧ ∀ j < k, (f^[j] s).phase ≠ .idle := by
  induction n generalizing s with
  | zero => exact ⟨0, le_rfl, rfl, by simp⟩
  | succ n ih =>
    by_cases hs : s.phase = .idle
    · exact ⟨0, by omega, runToIdle_idle f _ s hs, by simp⟩
    · obtain ⟨k, hk, he, hj⟩ := ih (f s)
      refine ⟨k + 1, by omega, by rw [runToIdle_busy f n s hs, he, Function.iterate_succ_apply], ?_⟩
      rintro (_ | j) hlt
      · exact hs
      · simpa [Function.iterate_succ_apply] using hj j (by omega)

/-- More steps than a run needs change nothing. -/
theorem runToIdle_add (f : State → State) (n k : Nat) (s : State) (h : (runToIdle f n s).phase = .idle) :
    runToIdle f (n + k) s = runToIdle f n s := by
  induction n generalizing s with
  | zero => rw [Nat.zero_add, runToIdle_idle f k s h]; rfl
  | succ n ih =>
    by_cases hs : s.phase = .idle
    · rw [runToIdle_idle f _ s hs, runToIdle_idle f _ s hs]
    · rw [Nat.add_right_comm, runToIdle_busy f _ s hs, runToIdle_busy f _ s hs]
      rw [runToIdle_busy f _ s hs] at h
      exact ih _ h

/-- A whole command answers a next state exactly when its run ended idle. -/
theorem commandOutcome_eq_next (s t : State) : commandOutcome s = .next t ↔ s = t ∧ s.phase = .idle := by
  unfold commandOutcome
  by_cases h : s.phase.isIdle = true
  · rw [if_pos h, Host.Outcome.next.injEq, ← Phase.isIdle_iff]; simp [h]
  · have : s.phase ≠ .idle := fun hi => h ((Phase.isIdle_iff _).2 hi)
    simp [h, this]

/-- A command whose run ended idle. -/
theorem commandOutcome_of_idle (s : State) (h : s.phase = .idle) : commandOutcome s = .next s :=
  (commandOutcome_eq_next s s).2 ⟨rfl, h⟩

/-! In its own phases a command's step is the engine's step (R135, R136). -/

theorem engineStep_nop (s : State) (h : s.phase ∈ phasesOf .nop) : engineStep s = systemStep s := by
  simp only [phasesOf, List.mem_singleton] at h; simp [engineStep, h]
theorem engineStep_clear (s : State) (k : BitVec 6) (h : s.phase ∈ phasesOf (.clear k)) :
    engineStep s = systemStep s := by
  simp only [phasesOf, List.mem_singleton] at h; simp [engineStep, h]
theorem engineStep_analyze (s : State) (h : s.phase ∈ phasesOf .analyze) : engineStep s = analyzeStep s := by
  simp only [phasesOf, List.mem_cons, List.not_mem_nil, or_false] at h
  rcases h with h | h <;> simp [engineStep, h]
theorem engineStep_build (s : State) (h : s.phase ∈ phasesOf .build) : engineStep s = buildStep s := by
  simp only [phasesOf, List.mem_cons, List.not_mem_nil, or_false] at h
  rcases h with h | h | h | h | h <;> simp [engineStep, h]
theorem engineStep_derive (s : State) (h : s.phase ∈ phasesOf .derive) : engineStep s = deriveStep s := by
  simp only [phasesOf, List.mem_cons, List.not_mem_nil, or_false] at h
  rcases h with h | h | h | h <;> simp [engineStep, h]
theorem engineStep_encode (s : State) (h : s.phase ∈ phasesOf .encode) : engineStep s = encodeStep s := by
  simp only [phasesOf, List.mem_cons, List.not_mem_nil, or_false] at h
  rcases h with h | h | h <;> simp [engineStep, h]
theorem engineStep_decode (s : State) (h : s.phase ∈ phasesOf .decode) : engineStep s = decodeStep s := by
  simp only [phasesOf, List.mem_cons, List.not_mem_nil, or_false] at h
  rcases h with h | h | h | h <;> simp [engineStep, h]

/-! The run behind each command. -/

theorem exec_nop (s : State) :
    exec .nop s = commandOutcome (runToIdle systemStep 1 (dispatchTo 0 0 .nRun s)) := rfl
theorem exec_clear (k : BitVec 6) (s : State) :
    exec (.clear k) s = commandOutcome (runToIdle systemStep 1 (dispatchTo 6 k .xClr s)) := rfl
theorem exec_analyze (s : State) :
    exec .analyze s = commandOutcome (runToIdle analyzeStep (2 + s.symlen.toNat) (dispatchTo 1 0 .aClr s)) := rfl
theorem exec_build (s : State) :
    exec .build s = commandOutcome (runToIdle buildStep (3 + 2 * Config.kMax) (dispatchTo 2 0 .bClr s)) := rfl
theorem exec_derive (s : State) :
    exec .derive s = commandOutcome (runToIdle deriveStep (2 + 2 * Config.kMax) (dispatchTo 3 0 .cClr s)) := rfl
theorem exec_encode (s : State) :
    exec .encode s = commandOutcome (runToIdle encodeStep (3 + s.symlen.toNat) (dispatchTo 4 0 .eClr s)) := rfl
theorem exec_decode (s : State) :
    exec .decode s =
      commandOutcome (runToIdle decodeStep (3 + Config.kMax + s.bitlen.toNat) (dispatchTo 5 0 .dClr s)) := rfl

/-! One phase at a time. -/

@[simp] theorem systemStep_nRun (s : State) (h : s.phase = .nRun) : systemStep s = phaseNRun s := by
  simp [systemStep, h]
@[simp] theorem systemStep_xClr (s : State) (h : s.phase = .xClr) : systemStep s = phaseXClr s := by
  simp [systemStep, h]
@[simp] theorem analyzeStep_aClr (s : State) (h : s.phase = .aClr) : analyzeStep s = phaseAClr s := by
  simp [analyzeStep, h]
@[simp] theorem analyzeStep_aCount (s : State) (h : s.phase = .aCount) : analyzeStep s = phaseACount s := by
  simp [analyzeStep, h]
@[simp] theorem buildStep_bClr (s : State) (h : s.phase = .bClr) : buildStep s = phaseBClr s := by
  simp [buildStep, h]
@[simp] theorem buildStep_bScan (s : State) (h : s.phase = .bScan) : buildStep s = phaseBScan s := by
  simp [buildStep, h]
@[simp] theorem buildStep_bCheck (s : State) (h : s.phase = .bCheck) : buildStep s = phaseBCheck s := by
  simp [buildStep, h]
@[simp] theorem buildStep_bMerge (s : State) (h : s.phase = .bMerge) : buildStep s = phaseBMerge s := by
  simp [buildStep, h]
@[simp] theorem buildStep_bRoot (s : State) (h : s.phase = .bRoot) : buildStep s = phaseBRoot s := by
  simp [buildStep, h]
@[simp] theorem deriveStep_cClr (s : State) (h : s.phase = .cClr) : deriveStep s = phaseCClr s := by
  simp [deriveStep, h]
@[simp] theorem deriveStep_cCheck (s : State) (h : s.phase = .cCheck) : deriveStep s = phaseCCheck s := by
  simp [deriveStep, h]
@[simp] theorem deriveStep_cRoot (s : State) (h : s.phase = .cRoot) : deriveStep s = phaseCRoot s := by
  simp [deriveStep, h]
@[simp] theorem deriveStep_cWalk (s : State) (h : s.phase = .cWalk) : deriveStep s = phaseCWalk s := by
  simp [deriveStep, h]
@[simp] theorem encodeStep_eClr (s : State) (h : s.phase = .eClr) : encodeStep s = phaseEClr s := by
  simp [encodeStep, h]
@[simp] theorem encodeStep_eSym (s : State) (h : s.phase = .eSym) : encodeStep s = phaseESym s := by
  simp [encodeStep, h]
@[simp] theorem encodeStep_eFin (s : State) (h : s.phase = .eFin) : encodeStep s = phaseEFin s := by
  simp [encodeStep, h]
@[simp] theorem decodeStep_dClr (s : State) (h : s.phase = .dClr) : decodeStep s = phaseDClr s := by
  simp [decodeStep, h]
@[simp] theorem decodeStep_dLmax (s : State) (h : s.phase = .dLmax) : decodeStep s = phaseDLmax s := by
  simp [decodeStep, h]
@[simp] theorem decodeStep_dBit (s : State) (h : s.phase = .dBit) : decodeStep s = phaseDBit s := by
  simp [decodeStep, h]
@[simp] theorem decodeStep_dEnd (s : State) (h : s.phase = .dEnd) : decodeStep s = phaseDEnd s := by
  simp [decodeStep, h]

end Sys2Proof.Machine
end

