-- ==== Sys2Proof/Laws/Sequence.lean ====
section
/-! SUPPORT. The laws of bit sequences in words (20_memory.md rule R74): reading a bit after setting one,
in a vector and in BITBUF, and the words of a code word. -/

namespace Sys2Proof.Machine

theorem seqBit_of_le {n : Nat} (q : BitVec n) (i : Nat) (h : n ≤ i) : seqBit q i = false := by
  simp [seqBit, BitVec.getMsbD, Nat.not_lt.2 h]

@[simp] theorem seqBit_zero {n : Nat} (i : Nat) : seqBit (0 : BitVec n) i = false := by simp [seqBit]

/-- Two vectors with the same bits are equal. -/
theorem seqBit_ext {n : Nat} (q r : BitVec n) (h : ∀ i < n, seqBit q i = seqBit r i) : q = r :=
  BitVec.eq_of_getMsbD_eq fun i hi => h i hi

/-- Reading an element of a bit sequence after setting one. -/
theorem seqBit_setSeqBit {n : Nat} (q : BitVec n) (i j : Nat) (b : Bool) :
    seqBit (setSeqBit q i b) j = if j = i ∧ i < n then b else seqBit q j := by
  unfold setSeqBit
  by_cases hi : i < n
  · by_cases hj : j < n
    · have key : (n - 1 - i = n - 1 - j) ↔ j = i := by omega
      cases b <;> by_cases hji : j = i <;>
        simp [seqBit, BitVec.getMsbD, BitVec.getLsbD_twoPow, hi, hj, hji, key] <;> omega
    · have : ¬ (j = i ∧ i < n) := by omega
      rw [if_neg this, seqBit_of_le _ _ (by omega), seqBit_of_le _ _ (by omega)]
  · simp [hi]

/-- Storing stream bits keeps every memory canonical. -/
theorem wf_setBit (m : Memory) (h : m.wf) (t : Nat) (b : Bool) : (setBit m t b).wf := wf_setBitWord m h _ _

theorem wf_putBits (m : Memory) (h : m.wf) (t : Nat) (c : CodeVec) (n : Nat) : (putBits m t c n).wf := by
  induction n with
  | zero => exact h
  | succ n ih => exact wf_setBit _ ih _ _

/-- Reading a stream bit after storing one (R43, R74). -/
theorem bitAt_setBit (m : Memory) (h : m.wf) (t u : Nat) (b : Bool) :
    bitAt (setBit m t b) u = if u = t ∧ t < Config.mMax then b else bitAt m u := by
  unfold bitAt setBit
  rw [bitWordAt_setBitWord m h]
  by_cases hw : u / 32 = t / 32
  · by_cases ht : t / 32 < Config.bitWords
    · rw [if_pos ⟨hw, ht⟩, seqBit_setSeqBit, hw]
      have h1 : (u % 32 = t % 32 ∧ t % 32 < 32) ↔ (u = t ∧ t < Config.mMax) := by
        simp only [Config.bitWords] at ht; simp only [Config.mMax]; omega
      simp only [h1]
    · have h1 : ¬ (u = t ∧ t < Config.mMax) := by
        simp only [Config.bitWords] at ht; simp only [Config.mMax]; omega
      simp [ht, h1]
  · have h1 : ¬ (u = t ∧ t < Config.mMax) := by rintro ⟨rfl, -⟩; exact hw rfl
    simp [hw, h1]

/-- Reading a stream bit after a code word was appended at `t` (R222). -/
theorem bitAt_putBits (m : Memory) (h : m.wf) (t u : Nat) (c : CodeVec) (n : Nat) (hn : t + n ≤ Config.mMax) :
    bitAt (putBits m t c n) u = if t ≤ u ∧ u < t + n then seqBit c (u - t) else bitAt m u := by
  induction n with
  | zero => simp [putBits]
  | succ n ih =>
    rw [putBits, bitAt_setBit _ (wf_putBits m h t c n), ih (by omega)]
    by_cases hu : u = t + n
    · subst hu
      have : t + n < Config.mMax := by omega
      simp [this]
    · have : (t ≤ u ∧ u < t + (n + 1)) ↔ (t ≤ u ∧ u < t + n) := by omega
      simp [hu, this]

@[simp] theorem putBits_freq (m : Memory) (t : Nat) (c : CodeVec) (n : Nat) : (putBits m t c n).freq = m.freq := by
  induction n with
  | zero => rfl
  | succ n ih => exact ih
@[simp] theorem putBits_node (m : Memory) (t : Nat) (c : CodeVec) (n : Nat) : (putBits m t c n).node = m.node := by
  induction n with
  | zero => rfl
  | succ n ih => exact ih
@[simp] theorem putBits_cb (m : Memory) (t : Nat) (c : CodeVec) (n : Nat) : (putBits m t c n).cb = m.cb := by
  induction n with
  | zero => rfl
  | succ n ih => exact ih
@[simp] theorem putBits_symbuf (m : Memory) (t : Nat) (c : CodeVec) (n : Nat) :
    (putBits m t c n).symbuf = m.symbuf := by
  induction n with
  | zero => rfl
  | succ n ih => exact ih
@[simp] theorem putBits_dsym (m : Memory) (t : Nat) (c : CodeVec) (n : Nat) : (putBits m t c n).dsym = m.dsym := by
  induction n with
  | zero => rfl
  | succ n ih => exact ih

/-! The words of a code word (R76). -/

/-- Bit `31 - i` of CODE`w` is `code[32 * w + i]`; bit 0 of CODE7 is 0. -/
theorem seqBit_codeWord (c : CodeVec) (w : Nat) (hw : w < 8) (i : Nat) (hi : i < 32) :
    seqBit (codeWord c w) i = seqBit c (32 * w + i) := by
  unfold seqBit codeWord
  rw [BitVec.getMsbD, BitVec.getMsbD]
  simp only [BitVec.getLsbD_extractLsb', BitVec.getLsbD_append, hi, decide_true, Bool.true_and]
  by_cases h : 32 * w + i < 255
  · have h1 : ¬ (32 * (7 - w) + (32 - 1 - i) < 1) := by omega
    have h2 : 32 * (7 - w) + (32 - 1 - i) - 1 = 255 - 1 - (32 * w + i) := by omega
    have h3 : 32 - 1 - i < 32 := by omega
    simp [h, h1, h2, h3]
  · have h1 : 32 * (7 - w) + (32 - 1 - i) < 1 := by omega
    simp [h, h1]

/-- The code word after a write of CODE`w`: its 32 bits (31 in CODE7) are the word's, the rest are as
before. -/
theorem seqBit_setCodeWord (c : CodeVec) (w : Nat) (hw : w < 8) (v : Word) (j : Nat) (hj : j < 255) :
    seqBit (setCodeWord c w v) j = if j / 32 = w then seqBit v (j % 32) else seqBit c j := by
  unfold seqBit setCodeWord
  rw [BitVec.getMsbD, BitVec.getMsbD, BitVec.getMsbD]
  have ht : (0xFFFFFFFF#256) = BitVec.setWidth 256 (BitVec.allOnes 32) := by decide
  simp only [ht, BitVec.getLsbD_extractLsb', BitVec.getLsbD_append, BitVec.getLsbD_or, BitVec.getLsbD_and,
    BitVec.getLsbD_not, BitVec.getLsbD_shiftLeft, BitVec.getLsbD_setWidth, BitVec.getLsbD_allOnes, hj, decide_true,
    Bool.true_and]
  have a1 : ¬ (1 + (255 - 1 - j) < 1) := by omega
  have a2 : 255 - 1 - j < 255 := by omega
  have a3 : 1 + (255 - 1 - j) < 256 := by omega
  have a4 : 1 + (255 - 1 - j) - 1 = 255 - 1 - j := by omega
  by_cases h : j / 32 = w
  · have b1 : ¬ (1 + (255 - 1 - j) < 32 * (7 - w)) := by omega
    have b2 : 1 + (255 - 1 - j) - 32 * (7 - w) = 32 - 1 - j % 32 := by omega
    have b3 : 32 - 1 - j % 32 < 32 := by omega
    have b4 : 32 - 1 - j % 32 < 256 := by omega
    have b5 : j % 32 < 32 := by omega
    simp [h, a1, a2, a3, b1, b2, b3, b4, b5]
  · by_cases b1 : 1 + (255 - 1 - j) < 32 * (7 - w)
    · simp [h, a1, a2, a3, a4, b1]
    · have b2 : ¬ (1 + (255 - 1 - j) - 32 * (7 - w) < 32) := by omega
      have b3 : v.getLsbD (1 + (255 - 1 - j) - 32 * (7 - w)) = false := BitVec.getLsbD_of_ge _ _ (by omega)
      simp [h, a1, a2, a3, a4, b1, b2, b3]

end Sys2Proof.Machine
end

