-- ==== Sys2Proof/Laws/Window.lean ====
section
/-! SUPPORT. What the two host transactions can do (20_memory.md rules R60, R61, R64). -/

namespace Sys2Proof.Machine

/-- A read that succeeds: the location is mapped, reachable now, and its stored value comes back. -/
theorem memRead_eq_some (size : Nat) (off : Offset) (s : State) (v : Word) :
    memRead size off s = some v ↔
      ∃ l, target size off = some l ∧ (s.busy = true → readableBusy l = true) ∧ readLoc l s = v := by
  unfold memRead
  cases h : target size off with
  | none => simp
  | some l => cases hb : s.busy <;> cases hr : readableBusy l <;> simp [hr]

/-- A write that succeeds: the location is mapped, writable, reachable now, and the data defined and in
range; the state after it is the location's effect. -/
theorem memWrite_eq_some (size : Nat) (off : Offset) (v : Word) (s t : State) :
    memWrite size off v s = some t ↔
      ∃ l, target size off = some l ∧ writable l = true ∧ (s.busy = true → writableBusy l = true) ∧
        v &&& ~~~definedBits l = 0 ∧ inRange l v = true ∧ writeLoc l v s = t := by
  unfold memWrite
  cases h : target size off with
  | none => simp
  | some l =>
    cases hb : s.busy <;> cases hw : writable l <;> cases hr : writableBusy l <;> cases hi : inRange l v <;>
      by_cases hd : v &&& ~~~definedBits l = 0 <;> simp [hw, hr, hi, hd]

/-- Every effect of a write keeps every memory canonical. -/
theorem wf_writeLoc (l : Loc) (v : Word) (s : State) (h : s.mem.wf) : (writeLoc l v s).mem.wf := by
  cases l <;> try exact h
  case ctrl =>
    unfold writeLoc
    dsimp only
    split_ifs
    exacts [wf_empty, h]
  case freq => exact wf_setFreq _ h _ _
  case bitbuf => exact wf_setBitWord _ h _ _
  case cbCtl => exact wf_setCb _ h _ _
  case cbCode => exact wf_setCb _ h _ _
  case symbuf => exact wf_setSym _ h _ _

/-- A read changes nothing but the answer (R60). -/
theorem serveHost_read (size : Nat) (off : Offset) (s : State) :
    serveHost (.read size off) s = { s with response := some (readResponse size off s) } := rfl

/-- A refused write changes nothing but the answer (R61). -/
theorem serveHost_refused (size : Nat) (off : Offset) (v : Word) (s : State) (h : memWrite size off v s = none) :
    serveHost (.write size off v) s = { s with response := some .accessError } := by
  simp [serveHost, h]

/-- A served write has the location's effect (R61, R70). -/
theorem serveHost_written (size : Nat) (off : Offset) (v : Word) (s t : State)
    (h : memWrite size off v s = some t) :
    serveHost (.write size off v) s = { t with response := some .ok } := by
  simp [serveHost, h]

/-- Every action of the host keeps every memory canonical. -/
theorem wf_serveHost (a : HostAction) (s : State) (h : s.mem.wf) : (serveHost a s).mem.wf := by
  cases a with
  | read size off => exact h
  | write size off v =>
    cases hw : memWrite size off v s with
    | none => rw [serveHost_refused _ _ _ _ hw]; exact h
    | some t =>
      rw [serveHost_written _ _ _ _ _ hw]
      obtain ⟨l, -, -, -, -, -, rfl⟩ := (memWrite_eq_some size off v s t).1 hw
      exact wf_writeLoc l v s h
  | hardReset => exact wf_empty

end Sys2Proof.Machine
end

