-- ==== Sys2Proof/Tests/Slice0.lean ====
section
/-! SUPPORT. The model's own tests. Expected values come from the worked examples of the spec's rules and the
words its encoding tables give, written out by hand; the `witness_` theorems show that the hypotheses of the
statements in Obligations.lean can be met. -/

namespace Sys2Proof.Tests

open Sys2Proof.Machine

/-! ## Helpers -/

/-- The next state of an outcome that has one. -/
def final (o : Host.Outcome State Fault Refusal) : State :=
  match o with
  | .next t => t
  | _ => State.reset

/-- Does the outcome have a next state. -/
def goesOn (o : Host.Outcome State Fault Refusal) : Bool :=
  match o with
  | .next _ => true
  | _ => false

theorem eq_next_final (o : Host.Outcome State Fault Refusal) (h : goesOn o = true) : o = .next (final o) := by
  cases o with
  | next t => rfl
  | fault r => cases h
  | refused r => cases h

/-- The input, table, tree, codebook and stream of the worked examples of R160, R170, R200 and R220: 'a','a','b'. -/
def sample : State :=
  { State.reset with
    symlen := 3
    bitlen := 3
    root := 2
    nnodes := 3
    nleaves := 2
    treeValid := true
    mem :=
      { freq := [(0x61, 2), (0x62, 1)]
        node := [(0, ⟨true, true, 0x61, 2, 0, 0⟩), (1, ⟨true, true, 0x62, 1, 0, 0⟩), (2, ⟨true, false, 0, 3, 1, 0⟩)]
        cb := [(0x61, ⟨true, 1, BitVec.twoPow 255 254⟩), (0x62, ⟨true, 1, 0⟩)]
        symbuf := [(0, 0x61), (1, 0x61), (2, 0x62)]
        bitbuf := [(0, 0xC0000000)]
        dsym := [] } }

/-- The state in which a command has been accepted on the sample. -/
def accepted (i : Instr) : State := acceptCommand (encode i) sample

/-- The end of a command run from the sample. -/
def after (i : Instr) : State := final (exec i (accepted i))

/-- One step of the machine on a table row's word, from a state. -/
def ran (s : State) (w : Nat) : State := final (step (s.withFetchWord 32 w))

/-! ## Well-formedness -/

/-- R105 clause 1: Z0 not zero. -/
theorem test_wf_z0 : (CmdFields.mk 0 1 0 0).wf = false ∧ (CmdFields.mk 0 1 0 0).reservedClear = false := by decide
/-- R105 clause 1: Z1 not zero. -/
theorem test_wf_z1 : (CmdFields.mk 6 0 0 1).wf = false ∧ (CmdFields.mk 6 0 0 1).reservedClear = false := by decide
/-- R105 clause 2: opcode 7. -/
theorem test_wf_opcode : (CmdFields.mk 7 0 0 0).wf = false ∧ (CmdFields.mk 7 0 0 0).opcodeKnown = false := by decide
/-- R105 clause 3: a mask on DECODE. -/
theorem test_wf_mask : (CmdFields.mk 5 0 1 0).wf = false ∧ (CmdFields.mk 5 0 1 0).maskAllowed = false := by decide
theorem test_wf_clear : (CmdFields.mk 6 0 0x3F 0).wf = true := by decide

/-! ## Decoding: words from the match column and the bit fields of R101, R103, R104 -/

theorem test_decode_nop : decode 0b00000000000000000000000000000000#32 = .ok .nop := by decide
theorem test_decode_analyze : decode 0b00000000000000000000000000000001#32 = .ok .analyze := by decide
theorem test_decode_build : decode 0b00000000000000000000000000000010#32 = .ok .build := by decide
theorem test_decode_derive : decode 0b00000000000000000000000000000011#32 = .ok .derive := by decide
theorem test_decode_encode : decode 0b00000000000000000000000000000100#32 = .ok .encode := by decide
theorem test_decode_decode : decode 0b00000000000000000000000000000101#32 = .ok .decode := by decide
/-- `w[9]` is TREE, `w[13]` DSYM (R103). -/
theorem test_decode_clear : decode 0b00000000000000000010001000000110#32 = .ok (.clear 0b100010#6) := by decide
theorem test_decode_clear_selects :
    selected 0b100010#6 = [.tree, .dsym] ∧ selected 0 = [] ∧ selected 0b010101#6 = [.freq, .cb, .bit] := by decide
/-- Each clause of R105 at its boundary. -/
theorem test_decode_illegal :
    decode 0x00000007#32 = .error .unknownOpcode ∧ decode 0x0000000F#32 = .error .unknownOpcode ∧
    decode 0x00000016#32 = .error .reservedBits ∧ decode 0x00000080#32 = .error .reservedBits ∧
    decode 0x00004006#32 = .error .reservedBits ∧ decode 0x80000000#32 = .error .reservedBits ∧
    decode 0x00000105#32 = .error .strayMask ∧ decode 0x00002000#32 = .error .strayMask := by decide
theorem test_decode_table_word : decodeTableWord 32 0x3F06 = some (.clear 0x3F) ∧ decodeTableWord 32 7 = none := by
  decide

/-! ## Commands, one step each -/

/-- R139: NOP from reset reads `0x00000002`. -/
theorem test_nop : memRead 4 0x0014#16 (ran State.reset 0) = some 0x00000002#32 := by decide
/-- R140: after a BUILD, CLEAR TREE leaves no tree and the codebook. -/
theorem test_clear_tree :
    statusWord (ran sample 0x206) = 0x00000002#32 ∧ (ran sample 0x206).nnodes = 0 ∧
      (ran sample 0x206).mem.node = [] ∧ (ran sample 0x206).mem.cb = sample.mem.cb := by decide
/-- R140: all the others, and the tree stays. -/
theorem test_clear_others :
    (ran sample 0x3D06).mem = { Memory.empty with node := sample.mem.node } ∧ (ran sample 0x3D06).symlen = 0 ∧
      (ran sample 0x3D06).bitlen = 0 ∧ (ran sample 0x3D06).treeValid = true := by decide
/-- R160: the worked example, from an old table. -/
theorem test_analyze :
    (ran { sample with mem := { sample.mem with freq := [(7, 9)] } } 1).mem.freq = [(0x61, 2), (0x62, 1)] := by decide
/-- R170: the worked example, from no tree. -/
theorem test_build :
    (ran { sample with mem := { sample.mem with node := [] } } 2).mem.node = sample.mem.node ∧
      (ran sample 2).root = 2 ∧ (ran sample 2).nnodes = 3 ∧ (ran sample 2).nleaves = 2 := by decide +kernel
/-- R192: the queue order of "abracadabra", the tree's CHILD words. -/
theorem test_build_ties :
    (List.range 9).map (fun n => childWord (nodeAt
      (ran { State.reset with
        mem := { Memory.empty with freq := [(0x61, 5), (0x62, 2), (0x63, 1), (0x64, 1), (0x72, 2)] } } 2).mem n)) =
      [0, 0, 0, 0, 0, 0x00030002, 0x00040001, 0x00060005, 0x00070000] := by decide +kernel
/-- R200: the worked example, from an old codebook. -/
theorem test_derive :
    (ran { sample with mem := { sample.mem with cb := [(9, ⟨true, 9, 9⟩)] } } 3).mem.cb = sample.mem.cb := by
  decide +kernel
/-- R205: the single leaf. -/
theorem test_derive_single :
    (ran { sample with root := 1 } 3).mem.cb = [(0x62, ⟨true, 1, 0⟩)] := by decide +kernel
/-- R220: the worked example, from an old stream. -/
theorem test_encode :
    (ran { sample with mem := { sample.mem with bitbuf := [(5, 5)] } } 4).mem.bitbuf = [(0, 0xC0000000)] ∧
      (ran sample 4).bitlen = 3 := by decide +kernel
/-- R223: the third symbol has no entry. -/
theorem test_encode_missing :
    (ran { sample with mem := { sample.mem with symbuf := [(0, 0x61), (1, 0x62), (2, 0x78)] } } 4).errinfo =
      0x40780002#32 := by decide +kernel
/-- R240: the worked example. -/
theorem test_decode_stream :
    (ran sample 5).mem.dsym = [(0, 0x61), (1, 0x61), (2, 0x62)] ∧ (ran sample 5).dsymlen = 3 := by decide +kernel
/-- R256 clause c: the single-symbol codebook, the stream "10". -/
theorem test_decode_overlong :
    (ran { sample with
      bitlen := 2, mem := { sample.mem with cb := [(0x61, ⟨true, 1, 0⟩)], bitbuf := [(0, 0x80000000)] } } 5).errinfo =
      0x52000000#32 := by decide +kernel

/-! ## The host's side -/

/-- R75: the worked example's records as words. -/
theorem test_node_words :
    memRead 4 0x2000#16 sample = some 0x00000002#32 ∧ memRead 4 0x200C#16 sample = some 0xC0000061#32 ∧
      memRead 4 0x2028#16 sample = some 0x00000001#32 ∧ memRead 4 0x202C#16 sample = some 0x80000000#32 := by decide
/-- R76, R200: the codebook's words. -/
theorem test_codebook_words :
    memRead 4 0x5840#16 sample = some 0x80000001#32 ∧ memRead 4 0x5844#16 sample = some 0x80000000#32 ∧
      memRead 4 0x5880#16 sample = some 0x80000001#32 ∧ memRead 4 0x5884#16 sample = some 0#32 := by decide
/-- R74: element 254 of a code word is bit 1 of CODE7. -/
theorem test_last_code_bit :
    (memWrite 4 0x7FE0#16 0x00000002#32 State.reset).map (fun t => seqBit (cbAt t.mem 255).code 254) = some true ∧
      memWrite 4 0x7FE0#16 0x00000001#32 State.reset = none := by decide
/-- R74: the 23-bit example stream is the word `0x6E8ADC00`. -/
theorem test_stream_packing :
    (List.range 23).map (bitAt { Memory.empty with bitbuf := [(0, 0x6E8ADC00)] }) =
      [false, true, true, false, true, true, true, false, true, false, false, false, true, false, true, false, true,
        true, false, true, true, true, false] := by decide
/-- R75: the worked example of an Internal record, the four words. -/
theorem test_internal_words :
    (wloWord ⟨true, false, 0, 11, 0, 7⟩, whiWord ⟨true, false, 0, 11, 0, 7⟩, childWord ⟨true, false, 0, 11, 0, 7⟩,
      infoWord ⟨true, false, 0, 11, 0, 7⟩) = (0x0000000B#32, 0#32, 0x00070000#32, 0x80000000#32) := by decide
/-- R68: while BUSY. -/
theorem test_busy_lockout :
    memRead 4 0x0010#16 (accepted .nop) = none ∧ memRead 4 0x0014#16 (accepted .nop) = some 1#32 ∧
      memWrite 4 0x0400#16 0#32 (accepted .nop) = none ∧ memRead 4 0x000C#16 (accepted .nop) = some 0#32 := by decide
/-- A scheduled write to CMD is a step; the command is the step after it. -/
theorem test_schedule :
    final (step { sample with schedule := [.host (.write 4 0x0010#16 0x00000206#32)] }) =
      { accepted (.clear 0x02#6) with response := some .ok } := by decide

/-! ## Witnesses: the hypotheses of the statements can be met -/

theorem witness_DecodeUndoesEncode : ∃ w i, decode w = .ok i := ⟨0x00003F06#32, .clear 0x3F, by decide⟩

theorem witness_DecoderAgreesWithTable :
    (∃ w i, decode w = .ok i) ∧ (∃ w i, w &&& tableMask i = tableMatch i) ∧
      ∃ w i j, w &&& tableMask i = tableMatch i ∧ w &&& tableMask j = tableMatch j :=
  ⟨⟨5#32, .decode, by decide⟩, ⟨0x3F06#32, .clear 0, by decide⟩, ⟨0x106#32, .clear 0, .clear 1, by decide⟩⟩

/-- A word on either side of each clause of R105. -/
theorem witness_IllegalWordsAreRejected :
    decode 0x00003F06#32 = .ok (.clear 0x3F) ∧ decode 0x00004006#32 = .error .reservedBits ∧
      decode 0x00000010#32 = .error .reservedBits ∧ decode 0x00000006#32 = .ok (.clear 0) ∧
      decode 0x00000007#32 = .error .unknownOpcode ∧ decode 0x00000105#32 = .error .strayMask := by decide

theorem witness_StepRunsTheAcceptedCommand :
    ((accepted .build).phase = .dispatch ∧ decode (accepted .build).cmd = .ok .build ∧
      (accepted .build).schedule = []) ∧
    ∃ s : State, ∃ rest, s.phase = .dispatch ∧ decode s.cmd = .ok .build ∧ s.schedule = .engineRun :: rest :=
  ⟨by decide, { accepted .build with schedule := [.engineRun] }, [], by decide⟩

theorem witness_IllegalWordFaults : ∃ (s : State) (e : Illegal), s.phase = .dispatch ∧ decode s.cmd = .error e :=
  ⟨acceptCommand 0xFFFFFFFF#32 sample, .reservedBits, by decide⟩

theorem witness_StepServesTheNextEvent :
    (∃ s : State, s.schedule = [.engineStep]) ∧ (∃ s : State, s.schedule = [.host (.read 4 0x0014#16)]) ∧
      ∃ (s : State) (e : Illegal), s.schedule = [] ∧ s.phase = .dispatch ∧ decode s.cmd = .error e :=
  ⟨⟨{ sample with schedule := [.engineStep] }, rfl⟩, ⟨{ sample with schedule := [.host (.read 4 0x0014#16)] }, rfl⟩,
    acceptCommand 0x00000007#32 sample, .unknownOpcode, by decide⟩

/-- The engine's turn with nothing scheduled and by an event: idle, under way, and at an illegal word. -/
theorem witness_StepServesTheNextEvent_turns (sch : List Event) (_ : sch = [] ∨ sch = [.engineRun]) :
    (∃ s : State, s.schedule = sch ∧ s.phase = .idle) ∧
      (∃ s : State, s.schedule = sch ∧ s.phase ≠ .idle ∧ s.phase ≠ .dispatch) ∧
      ∃ (s : State) (e : Illegal), s.schedule = sch ∧ s.phase = .dispatch ∧ decode s.cmd = .error e :=
  ⟨⟨{ sample with schedule := sch }, rfl, rfl⟩,
    ⟨{ accepted .build with phase := .bClr, schedule := sch }, rfl, (by decide : Phase.bClr ≠ .idle),
      (by decide : Phase.bClr ≠ .dispatch)⟩,
    { acceptCommand 0x00000007#32 sample with schedule := sch }, .unknownOpcode, rfl, rfl,
    (by decide : decode 0x00000007#32 = .error .unknownOpcode)⟩

theorem witness_EngineFollowsThePhaseTable : (accepted .decode).phase ≠ .idle := by decide

theorem sample_cursors (p : Phase) (h : p = .idle ∨ p = .dispatch) : CursorsInRange { sample with phase := p } := by
  rcases h with rfl | rfl <;> exact ⟨by decide, by decide, by decide, by decide, by decide, by decide, by decide,
    by decide, by decide, by decide, trivial⟩

theorem sample_kept : WellKept sample := by decide

theorem sample_log : sample.errlog &&& ~~~0x0000003E#32 = 0 := by decide

theorem sample_lengths : LengthsInRange sample := by decide

theorem accepted_sound (i : Instr) : BlockSound (accepted i) :=
  ⟨sample_kept, rfl, fun _ => ⟨rfl, rfl, rfl⟩, sample_log, Nat.zero_le 5, sample_lengths,
    sample_cursors .dispatch (.inr rfl), fun _ h => absurd rfl h⟩

theorem sample_sound : BlockSound sample :=
  ⟨sample_kept, rfl, fun h => absurd h (by decide), by decide, by decide, by decide,
    sample_cursors .idle (.inl rfl), fun h => absurd rfl h⟩

theorem witness_HostCannotDisturbACommand :
    BlockSound (accepted .encode) ∧ (accepted .encode).busy = true ∧ ¬ Resets (.write 4 0x0010#16 5) ∧
      ¬ Resets (.write 4 0x000C#16 1) :=
  ⟨accepted_sound _, rfl, fun h => absurd h.1 (by decide), fun h => absurd h.2 (by decide)⟩

theorem accepted_accepted (i : Instr) : Accepted i (accepted i) := ⟨rfl, rfl, rfl, rfl, rfl, rfl⟩

theorem accepted_kept (i : Instr) : WellKept (accepted i) := sample_kept

theorem sample_tree : TreeShape sample := by decide +kernel

theorem accepted_tree (i : Instr) : TreeShape (accepted i) := sample_tree

theorem witness_CommandIsItsEngineSteps (i : Instr) :
    WellKept (accepted i) ∧ Accepted i (accepted i) ∧ (i = .derive → (accepted i).treeValid = true → TreeShape (accepted i)) :=
  ⟨accepted_kept i, accepted_accepted i, fun _ _ => accepted_tree i⟩

theorem completes_next (i : Instr) (h : goesOn (exec i (accepted i)) = true) :
    exec i (accepted i) = .next (after i) := eq_next_final _ h

theorem nop_next : exec .nop (accepted .nop) = .next (after .nop) := completes_next _ (by decide +kernel)
theorem analyze_next : exec .analyze (accepted .analyze) = .next (after .analyze) := completes_next _ (by decide +kernel)
theorem build_next : exec .build (accepted .build) = .next (after .build) := completes_next _ (by decide +kernel)
theorem derive_next : exec .derive (accepted .derive) = .next (after .derive) := completes_next _ (by decide +kernel)
theorem encode_next : exec .encode (accepted .encode) = .next (after .encode) := completes_next _ (by decide +kernel)
theorem decode_next : exec .decode (accepted .decode) = .next (after .decode) := completes_next _ (by decide +kernel)
theorem clear_next : exec (.clear 0x3F) (accepted (.clear 0x3F)) = .next (after (.clear 0x3F)) :=
  completes_next _ (by decide +kernel)

theorem witness_CommandFrame : ∃ s t, exec .build s = .next t := ⟨_, _, build_next⟩

theorem witness_WorkingStateFrame : ∃ s t, exec .decode s = .next t := ⟨_, _, decode_next⟩

/-- The empty block with a command accepted: BUILD and DERIVE fault on it. -/
def bare (i : Instr) : State := acceptCommand (encode i) State.reset

theorem bare_next (i : Instr) (h : goesOn (exec i (bare i)) = true) : exec i (bare i) = .next (final (exec i (bare i))) :=
  eq_next_final _ h

theorem witness_FaultsLeaveNoResult : ∃ i s t, Accepted i s ∧ exec i s = .next t ∧ t.err ≠ 0 :=
  ⟨.build, bare .build, _, by decide, bare_next .build (by decide +kernel), by decide +kernel⟩

theorem witness_CommandsRaiseOnlyTheirFaults : ∃ s t, Accepted .encode s ∧ exec .encode s = .next t :=
  ⟨_, _, accepted_accepted _, encode_next⟩

/-- Two states that agree on the tree and on nothing else. -/
theorem witness_SourcesDetermineTheResult :
    ∃ s s' t t', WellKept s ∧ WellKept s' ∧ Accepted .derive s ∧ Accepted .derive s' ∧ s ≠ s' ∧
      (∀ a ∈ sourcesOf .derive, SameArtifact a s s') ∧ exec .derive s = .next t ∧ exec .derive s' = .next t' :=
  ⟨accepted .derive, { accepted .derive with mem := { Memory.empty with node := sample.mem.node }, ie := true }, _, _,
    accepted_kept _, by decide, accepted_accepted _, by decide, by decide,
    fun a h => by
      cases a <;> first | exact absurd h (by decide) | exact ⟨fun _ => rfl, rfl, rfl, rfl, rfl⟩,
    derive_next, eq_next_final _ (by decide +kernel)⟩

theorem witness_NopCompletes : Accepted .nop (accepted .nop) := accepted_accepted _

theorem witness_ClearEmptiesTheSelected : Accepted (.clear 0x3F) (accepted (.clear 0x3F)) := accepted_accepted _

theorem witness_AnalyzeCountsOccurrences : Accepted .analyze (accepted .analyze) := accepted_accepted _

theorem witness_BuildOnTheEmptyTableFaults : Accepted .build (bare .build) ∧ ∀ x, freqAt (bare .build).mem x = 0 :=
  ⟨by decide, fun _ => rfl⟩

/-- A queue of three with the ties of two equal weights, and an index to add. -/
def queue : Work := { Work.zero with heap := [(0, 1), (2, 2)], heapCnt := 3 }

theorem witness_HeapIsAPriorityQueue :
    Store.WF Config.kMax (0 : NodeIdx) queue.heap ∧ HeapOrdered sample.mem queue ∧ (heapList queue).Nodup ∧
      queue.heapCnt < Config.kMax ∧ (5 : NodeIdx) ∉ heapList queue ∧ 1 ≤ queue.heapCnt ∧ queue.heapCnt ≤ Config.kMax :=
  ⟨by decide, fun c h1 h2 => by
      have h3 : c < 3 := h2
      interval_cases c <;> decide,
    by decide, by decide, by decide, by decide, by decide⟩

theorem witness_BuildMakesTheReferenceTree :
    WellKept (accepted .build) ∧ Accepted .build (accepted .build) ∧ presentSymbols (accepted .build).mem ≠ [] ∧
      WellKept (bare .build) ∧ Accepted .build (bare .build) ∧ presentSymbols (bare .build).mem = [] :=
  ⟨accepted_kept _, accepted_accepted _, by decide +kernel, by decide, by decide, by decide +kernel⟩

theorem witness_RootWeighsTheWholeTable :
    ∃ s t, WellKept s ∧ Accepted .build s ∧ presentSymbols s.mem ≠ [] ∧ exec .build s = .next t :=
  ⟨_, _, accepted_kept _, accepted_accepted _, by decide +kernel, build_next⟩

theorem witness_LighterChildIsLeft :
    ∃ s t, WellKept s ∧ Accepted .build s ∧ exec .build s = .next t ∧
      ∃ n < Config.nodeMax, (nodeAt t.mem n).used = true ∧ (nodeAt t.mem n).leaf = false :=
  ⟨_, _, accepted_kept _, accepted_accepted _, build_next, 2, by decide, by decide +kernel, by decide +kernel⟩

theorem witness_DeriveWithoutATreeFaults : Accepted .derive (bare .derive) ∧ (bare .derive).treeValid = false := by
  decide

/-- A tree of one leaf, with DERIVE accepted. -/
def single : State :=
  { accepted .derive with
    root := 0, nnodes := 1, nleaves := 1, mem := { sample.mem with node := [(0, ⟨true, true, 0x62, 1, 0, 0⟩)] } }

theorem witness_DeriveOnASingleLeaf :
    Accepted .derive single ∧ single.treeValid = true ∧ (nodeAt single.mem single.root.toNat).leaf = true ∧
      TreeShape single :=
  ⟨by decide, rfl, by decide, by decide +kernel⟩

theorem witness_DeriveRecordsThePaths :
    (WellKept (accepted .derive) ∧ Accepted .derive (accepted .derive) ∧ (accepted .derive).treeValid = true ∧
      TreeShape (accepted .derive) ∧ LeafAt (accepted .derive) [true] 0 ∧ LeafAt (accepted .derive) [false] 1) ∧
    (WellKept (bare .derive) ∧ Accepted .derive (bare .derive) ∧ (bare .derive).treeValid = false) :=
  ⟨⟨accepted_kept _, accepted_accepted _, rfl, accepted_tree _, ⟨by decide, by decide⟩, by decide, by decide⟩, by decide⟩

theorem derive_hypotheses :
    ∃ s t, WellKept s ∧ Accepted .derive s ∧ s.treeValid = true ∧ TreeShape s ∧ exec .derive s = .next t ∧
      (cbAt t.mem 0x61).valid = true ∧ (cbAt t.mem 0x62).valid = true :=
  ⟨_, _, accepted_kept _, accepted_accepted _, rfl, accepted_tree _, derive_next, by decide +kernel, by decide +kernel⟩

theorem witness_CodeLengthsAreBounded :
    ∃ s t, WellKept s ∧ Accepted .derive s ∧ s.treeValid = true ∧ TreeShape s ∧ exec .derive s = .next t ∧
      (cbAt t.mem 0x61).valid = true :=
  let ⟨s, t, h1, h2, h3, h4, h5, h6, _⟩ := derive_hypotheses
  ⟨s, t, h1, h2, h3, h4, h5, h6⟩

theorem witness_DerivedCodebookIsPrefixFree :
    ∃ s t, WellKept s ∧ Accepted .derive s ∧ s.treeValid = true ∧ TreeShape s ∧ exec .derive s = .next t :=
  let ⟨s, t, h1, h2, h3, h4, h5, _⟩ := derive_hypotheses
  ⟨s, t, h1, h2, h3, h4, h5⟩

theorem witness_EveryTableSymbolHasACode :
    ∃ s t u, WellKept s ∧ runCommand .build s = .next t ∧ runCommand .derive t = .next u ∧ freqAt s.mem 0x61 ≠ 0 :=
  ⟨sample, final (runCommand .build sample), _, by decide, eq_next_final _ (by decide +kernel),
    eq_next_final _ (by decide +kernel), by decide⟩

theorem sample_covered (i : Instr) : Covered (accepted i).mem (inputSymbols (accepted i)) := by
  have h : ∀ x ∈ inputSymbols sample, (cbAt sample.mem x).valid = true := by decide
  exact h

theorem sample_fits (i : Instr) : (encodeList (accepted i).mem (inputSymbols (accepted i))).length ≤ Config.mMax := by
  have h : (encodeList sample.mem (inputSymbols sample)).length ≤ Config.mMax := by decide
  exact h

theorem witness_EncodeConcatenatesTheCodeWords :
    (accepted .encode).mem.wf ∧ Accepted .encode (accepted .encode) ∧
      Covered (accepted .encode).mem (inputSymbols (accepted .encode)) ∧
      (encodeList (accepted .encode).mem (inputSymbols (accepted .encode))).length ≤ Config.mMax :=
  ⟨by decide, accepted_accepted _, sample_covered _, sample_fits _⟩

/-- The third input symbol has no entry. -/
def uncovered : State :=
  { accepted .encode with mem := { sample.mem with symbuf := [(0, 0x61), (1, 0x62), (2, 0x78)] } }

theorem witness_EncodeReportsTheMissingCode :
    uncovered.mem.wf ∧ Accepted .encode uncovered ∧ 2 < uncovered.symlen.toNat ∧
      Covered uncovered.mem ((inputSymbols uncovered).take 2) ∧
      (encodeList uncovered.mem ((inputSymbols uncovered).take 2)).length ≤ Config.mMax ∧
      (cbAt uncovered.mem (symAt uncovered.mem 2)).valid = false := by
  have h : ∀ x ∈ (inputSymbols uncovered).take 2, (cbAt uncovered.mem x).valid = true := by decide
  exact ⟨by decide, by decide, by decide, h, by decide, by decide⟩

/-- 129 symbols of 255 bits each: the last one does not fit (`128 * 255 = 32640`). -/
def overfull : State :=
  { accepted .encode with symlen := 129, mem := { Memory.empty with cb := [(0, ⟨true, 255, 0⟩)] } }

theorem witness_EncodeReportsTheFullBuffer :
    overfull.mem.wf ∧ Accepted .encode overfull ∧ 128 < overfull.symlen.toNat ∧
      Covered overfull.mem ((inputSymbols overfull).take 129) ∧
      (encodeList overfull.mem ((inputSymbols overfull).take 128)).length ≤ Config.mMax ∧
      Config.mMax < (encodeList overfull.mem ((inputSymbols overfull).take 129)).length := by
  have h : ∀ x ∈ (inputSymbols overfull).take 129, (cbAt overfull.mem x).valid = true := by decide +kernel
  rw [encodeList_length, encodeList_length]
  exact ⟨by decide, by decide, by decide, h, by decide +kernel, by decide +kernel⟩

theorem witness_StreamLengthIsTheCost :
    ∃ s t, s.mem.wf ∧ Accepted .encode s ∧ exec .encode s = .next t ∧ t.err = 0 :=
  ⟨_, _, (accepted_kept _).1, accepted_accepted _, encode_next, by decide +kernel⟩

theorem witness_DecodeFollowsTheScan : (accepted .decode).mem.wf ∧ Accepted .decode (accepted .decode) :=
  ⟨by decide, accepted_accepted _⟩

/-- The scan emits on the sample, and finds the dangling bit of the stream "01" of R256 clause c. -/
theorem witness_DecodeFollowsTheScan_cases :
    decodeReference (accepted .decode) = .symbols [0x61, 0x61, 0x62] ∧
      decodeReference { accepted .decode with
        bitlen := 2, mem := { sample.mem with cb := [(0x61, ⟨true, 1, 0⟩)], bitbuf := [(0, 0x40000000)] } } =
        .fault .corruptStream 1 0 1 := by decide +kernel

theorem witness_DecodeOfTheEmpty :
    (Accepted .decode (bare .decode) ∧ (bare .decode).bitlen = 0) ∧
      ∃ s : State, Accepted .decode s ∧ s.bitlen ≠ 0 ∧ ∀ x, (cbAt s.mem x).valid = false :=
  ⟨by decide, { bare .decode with bitlen := 1 }, by decide, by decide, fun _ => rfl⟩

theorem sample_valid (x : Symbol) (h : (cbAt sample.mem x).valid = true) : x = 0x61 ∨ x = 0x62 := by
  revert x; decide +kernel

theorem sample_prefix_free : PrefixFree sample.mem := by
  intro x y hne hx hy
  rcases sample_valid x hx with rfl | rfl <;> rcases sample_valid y hy with rfl | rfl
  · exact absurd rfl hne
  · decide
  · decide
  · exact absurd rfl hne

theorem sample_artifacts : ArtifactsSound sample :=
  ⟨fun h => absurd h (by decide), fun _ => sample_tree, by decide +kernel, by decide⟩

theorem accepted_artifacts (i : Instr) : ArtifactsSound (accepted i) := sample_artifacts

theorem witness_DecodeUndoesEncodeOfSymbols :
    ∃ s t, s.mem.wf ∧ ArtifactsSound s ∧ Accepted .encode s ∧ PrefixFree s.mem ∧ Covered s.mem (inputSymbols s) ∧
      (encodeList s.mem (inputSymbols s)).length ≤ Config.mMax ∧ exec .encode s = .next t :=
  ⟨_, _, (accepted_kept _).1, accepted_artifacts _, accepted_accepted _, sample_prefix_free, sample_covered _,
    sample_fits _, encode_next⟩

theorem witness_DecodeUndoesEncodeOfSymbols_empty :
    ∃ s t, s.mem.wf ∧ ArtifactsSound s ∧ Accepted .encode s ∧ s.symlen = 0 ∧ Covered s.mem (inputSymbols s) ∧
      (encodeList s.mem (inputSymbols s)).length ≤ Config.mMax ∧ exec .encode s = .next t := by
  have h : ∀ x ∈ inputSymbols (bare .encode), (cbAt (bare .encode).mem x).valid = true := by decide
  exact ⟨bare .encode, _, by decide, ⟨fun _ => ⟨rfl, rfl, rfl, fun _ _ => rfl⟩, fun h => absurd h (by decide),
    by decide +kernel, by decide⟩, by decide, rfl, h, by decide, eq_next_final _ (by decide +kernel)⟩

theorem witness_PipelineRoundTrip :
    WellKept sample ∧ LengthsInRange sample ∧ sample.symlen ≠ 0 ∧
      ∃ a b c d, runCommand .analyze sample = .next a ∧ runCommand .build a = .next b ∧
        runCommand .derive b = .next c ∧ runCommand .encode c = .next d ∧ d.err = 0 :=
  ⟨by decide, by decide, by decide, _, _, _, _, eq_next_final _ (by decide +kernel), eq_next_final _ (by decide +kernel),
    eq_next_final _ (by decide +kernel), eq_next_final _ (by decide +kernel), by decide +kernel⟩

theorem witness_RefusedWritesChangeNothing :
    memWrite 4 0x2000#16 0#32 sample = none ∧ ∃ t, memWrite 4 0x0400#16 1#32 sample = some t :=
  ⟨by decide, _, rfl⟩

/-- Reads on both sides of every boundary of the map (R62, R86), of the size, the alignment and the lockout. -/
theorem witness_ReadRefusedExactlyWhen :
    ([0x0034#16, 0x0400#16, 0x07FC#16, 0x1000#16, 0x3FEC#16, 0x4000#16, 0x4020#16, 0x4040#16, 0x7FE0#16, 0x8000#16,
      0xFFFC#16].all fun off => memRead 4 off State.reset == some 0#32) = true ∧
    ([0x0038#16, 0x03FC#16, 0x0800#16, 0x0FFC#16, 0x3FF0#16, 0x3FFC#16, 0x4024#16, 0x403C#16, 0x7FFC#16, 0x0401#16,
      0x0402#16, 0xFFFF#16].all fun off => memRead 4 off State.reset == none) = true ∧
    memRead 1 0x0400#16 State.reset = none ∧ memRead 8 0x0400#16 State.reset = none ∧
    (memRead 4 0x0008#16 (accepted .nop)).isSome ∧ memRead 4 0x0010#16 (accepted .nop) = none := by decide +kernel

/-- Writes on both sides of each of the six causes of R64. -/
theorem witness_WriteRefusedExactlyWhen :
    ([(0x0020#16, 4096#32), (0x0024#16, 32768#32), (0x001C#16, 0x3E#32), (0x4000#16, 0x80000001#32),
      (0x4000#16, 0x000000FF#32), (0x4020#16, 0xFFFFFFFE#32), (0xBFFC#16, 0xFF#32), (0x07FC#16, 0xFFFFFFFF#32),
      (0x1FFC#16, 0xFFFFFFFF#32), (0x0010#16, 0xFFFFFFFF#32)].all
      fun p => (memWrite 4 p.1 p.2 State.reset).isSome) = true ∧
    ([(0x0020#16, 4097#32), (0x0024#16, 32769#32), (0x001C#16, 0x40#32), (0x4000#16, 0x80000000#32),
      (0x4000#16, 0x100#32), (0x4020#16, 1#32), (0xBFFC#16, 0x100#32), (0x0800#16, 0#32), (0x2000#16, 0#32),
      (0xC000#16, 0#32), (0x0028#16, 0#32), (0x0411#16, 0#32)].all
      fun p => (memWrite 4 p.1 p.2 State.reset).isNone) = true ∧
    memWrite 2 0x0400#16 0#32 State.reset = none ∧ memWrite 4 0x0010#16 0#32 (accepted .nop) = none ∧
    (memWrite 4 0x0014#16 2#32 (accepted .nop)).isSome := by decide +kernel

/-- The first and last bit of the stream buffer and of a code word. -/
theorem witness_StoredWordReadsBack_packing :
    sample.busy = false ∧ bitAt sample.mem 0 = true ∧ memRead 4 0x1000#16 sample = some 0xC0000000#32 ∧
      32767 < Config.mMax ∧ (memRead 4 0x1FFC#16 sample).isSome ∧ 254 < Config.codeMax ∧
      (memRead 4 0x7FE0#16 sample).isSome := by decide

/-- The first and last stored word of each region (R62). -/
theorem witness_StoredWordReadsBack :
    sample.mem.wf ∧ sample.busy = false ∧
    ([(0x0020#16, 4096#32), (0x0024#16, 32768#32), (0x0400#16, 1#32), (0x07FC#16, 0xFFFFFFFF#32), (0x1000#16, 7#32),
      (0x1FFC#16, 0xFFFFFFFF#32), (0x4000#16, 0x800000FF#32), (0x7FE0#16, 0xFFFFFFFE#32), (0x8000#16, 0x61#32),
      (0xBFFC#16, 0xFF#32)].all
      fun p => decide (PlainOffset p.1.toNat) && (memWrite 4 p.1 p.2 sample).isSome) = true := by decide +kernel

theorem witness_CmdWriteIsAcceptance : sample.busy = false ∧ (accepted .nop).busy = true := by decide

theorem witness_LengthWritesAreRangeChecked :
    sample.busy = false ∧ (4096#32).toNat ≤ 4096 ∧ ¬ (4097#32).toNat ≤ 4096 ∧ (32768#32).toNat ≤ 32768 ∧
      ¬ (32769#32).toNat ≤ 32768 := by decide

theorem witness_CtlWritesAreChecked :
    sample.busy = false ∧ 0x80000000#32 &&& ~~~0x800000FF#32 = 0 ∧ 0x80000001#32 &&& ~~~0x800000FF#32 = 0 ∧
      0x000000FF#32 &&& ~~~0x800000FF#32 = 0 := by decide

/-- Busy, and idle with every field of STATUS set: `0x00000306` is DONE, TREE_VALID and ERR = 3 (R35). -/
theorem witness_StatusReadAndAcknowledge :
    (accepted .nop).busy = true ∧ sample.busy = false ∧
      memRead 4 0x0014#16 { sample with done := true, err := 3 } = some 0x00000306#32 := by decide

/-- Idle, at the first and last element of each region. -/
theorem witness_ReadsReturnTheState :
    sample.busy = false ∧
    ([0x0000#16, 0x0034#16, 0x0400#16, 0x07FC#16, 0x2000#16, 0x3FEC#16, 0x4000#16, 0x7FC0#16, 0x8000#16, 0xBFFC#16,
      0xC000#16, 0xFFFC#16].all fun off => (memRead 4 off sample).isSome) = true := by decide +kernel

theorem witness_ErrlogIsWriteOneToClear : sample.busy = false ∧ 0x0000003E#32 &&& ~~~0x0000003E#32 = 0 := by decide

theorem witness_InterruptFollowsDoneAndEnable : BlockSound (accepted .nop) ∧ (accepted .nop).busy = true :=
  ⟨accepted_sound _, rfl⟩

theorem witness_HostCannotWriteTreeOrOutput : ¬ Resets (.write 4 0x2000#16 0x80000000#32) ∧ ¬ Resets (.read 4 0x2000#16) :=
  ⟨fun h => absurd h.1 (by decide), id⟩

theorem witness_EngineKeepsHostRegistersAndLog :
    ∃ s t : State, (∀ a rest, s.schedule ≠ .host a :: rest) ∧ step s = .next t ∧ t.errlog ≠ s.errlog :=
  ⟨bare .build, final (step (bare .build)), fun _ _ h => List.noConfusion rfl (heq_of_eq h), eq_next_final _ (by decide +kernel),
    by decide +kernel⟩

/-- An offset in each case of the statement: a constant, a hole, and any other. -/
theorem witness_ResetReads :
    ([(0x0000#16, some 0x41594843#32), (0x0004#16, some 0xFF282008#32), (0x0008#16, some 0x80001000#32),
      (0x000C#16, some 0#32), (0x0038#16, none), (0xFFFC#16, some 0#32)].all
      fun p => decide (p.1.toNat % 4 = 0) && memRead 4 p.1 State.reset == p.2) = true := by decide +kernel

theorem witness_SoftResetIsHardReset : (memWrite 4 0x000C#16 0x80000001#32 (accepted .build)).isSome := by decide

theorem witness_EveryStepKeepsTheBlockSound : ∃ s t, BlockSound s ∧ step s = .next t ∧ t.busy ≠ s.busy :=
  ⟨accepted .build, _, accepted_sound _, eq_next_final _ (by decide +kernel), by decide +kernel⟩

/-- Also in the middle of a command. -/
theorem witness_EveryStepKeepsTheBlockSound_running :
    ∃ s t, BlockSound s ∧ s.phase = .aCount ∧ step s = .next t :=
  ⟨{ accepted .analyze with phase := .aCount, op := 1, work := { Work.zero with j := 2 } }, _,
    ⟨⟨by decide, by decide, by decide⟩, rfl, fun _ => ⟨rfl, rfl, rfl⟩, by decide, by decide, by decide,
      ⟨by decide, by decide, by decide, by decide, by decide, by decide, by decide, by decide, by decide, by decide,
        by decide⟩,
      fun _ _ => ⟨.analyze, by decide⟩⟩, rfl, eq_next_final _ (by decide +kernel)⟩

theorem witness_CommandsKeepArtifactsSound :
    ∃ s t, WellKept s ∧ ArtifactsSound s ∧ Accepted .build s ∧ exec .build s = .next t :=
  ⟨_, _, accepted_kept _, accepted_artifacts _, accepted_accepted _, build_next⟩

theorem witness_HostKeepsArtifactsSound : sample.mem.wf ∧ ArtifactsSound sample := ⟨by decide, sample_artifacts⟩

end Sys2Proof.Tests
end

section
/-! The engine, one step at a time (R135, R136): what each step leads to, said once, what a step of a running command
does to the control registers and to the phase, and the induction over the steps of a whole command. -/

namespace Sys2Proof.Machine

/-! ## What the looping phases do -/

/-- One symbol counted (R161). -/
noncomputable def countSymbol (s : State) : State :=
  { s with
    mem := setFreq s.mem (symAt s.mem s.work.j.toNat) (freqAt s.mem (symAt s.mem s.work.j.toNat) + 1)
    work := { s.work with j := s.work.j + 1 }
    phase := .aCount }

/-- The leaf of the scanned symbol, where its count is not zero (R178). -/
noncomputable def scanLeaf (s : State) : State :=
  if freqAt s.mem (BitVec.ofNat 8 s.work.i) ≠ 0 then
    allocNode (leafRec (BitVec.ofNat 8 s.work.i) (freqAt s.mem (BitVec.ofNat 8 s.work.i))) s
  else s

theorem phaseBScan_eq (s : State) : phaseBScan s =
    { scanLeaf s with
      work := { (scanLeaf s).work with i := s.work.i + 1 }
      phase := if s.work.i + 1 = Config.kMax then .bCheck else .bScan } := rfl

/-- NLEAVES set (R179). -/
noncomputable def countLeaves (s : State) : State := { s with nleaves := s.nnodes.setWidth 9 }

/-- The queue after the two least indices have left it (R180). -/
noncomputable def mergeWork (s : State) : Work := (heapExtract s.mem (heapExtract s.mem s.work).2).2

/-- The Internal record over the two least indices, the first one extracted on the left (R180, R182). -/
noncomputable def mergeRec (s : State) : NodeRec :=
  let l := (heapExtract s.mem s.work).1
  let r := (heapExtract s.mem (heapExtract s.mem s.work).2).1
  internalRec ((nodeAt s.mem l.toNat).weight + (nodeAt s.mem r.toNat).weight) l r

theorem phaseBMerge_eq (s : State) : phaseBMerge s =
    if s.work.heapCnt = 1 then { s with phase := .bRoot }
    else allocNode (mergeRec s) { s with work := mergeWork s, phase := .bMerge } := rfl

/-- The stack after the walk has popped the entry of an Internal record and pushed its children (R203). -/
noncomputable def pushChildren (r : NodeRec) (w : Work) : Work :=
  let e := (stkPop w).1
  stkPush r.left (e.depth + 1) (setSeqBit e.path e.depth.toNat false)
    (stkPush r.right (e.depth + 1) (setSeqBit e.path e.depth.toNat true) (stkPop w).2)

/-- What one stack entry does to the state, before the walk asks whether the stack is empty (R203). -/
noncomputable def walkEntry (s : State) : State :=
  let top := (stkPop s.work).1
  let r := nodeAt s.mem top.node.toNat
  if r.leaf then { s with mem := setCb s.mem r.sym (codeEntry top.depth top.path), work := (stkPop s.work).2 }
  else { s with work := pushChildren r s.work }

theorem phaseCWalk_eq (s : State) : phaseCWalk s =
    if (walkEntry s).work.sp = 0 then completeCommand (walkEntry s) else { walkEntry s with phase := .cWalk } := rfl

/-- One code word appended to the stream (R222). -/
noncomputable def appendCode (s : State) : State :=
  let c := cbAt s.mem (symAt s.mem s.work.j.toNat)
  { s with
    mem := putBits s.mem s.work.t.toNat c.code c.len.toNat
    work := { s.work with t := s.work.t + c.len.setWidth 16, j := s.work.j + 1 }
    phase := .eSym }

/-- The state in which the match set is asked: one bit consumed (R243). -/
noncomputable def takeBit (s : State) : State :=
  { s with
    work := { s.work with
      cstart := if s.work.clen = 0 then s.work.t else s.work.cstart
      cand := setSeqBit s.work.cand s.work.clen.toNat (bitAt s.mem s.work.t.toNat)
      clen := s.work.clen + 1
      t := s.work.t + 1 } }

/-- The start of the candidate noted, no bit consumed (R243). -/
noncomputable def noteStart (s : State) : State := { s with work := { s.work with cstart := (takeBit s).work.cstart } }

/-- The one matching symbol emitted (R243). -/
noncomputable def emitSymbol (x : Symbol) (s : State) : State :=
  { s with
    mem := setDsym s.mem s.work.e.toNat x, work := { s.work with e := s.work.e + 1, clen := 0 }, phase := .dBit }

theorem phaseDBit_eq (s : State) : phaseDBit s =
    if s.work.t = s.bitlen then { s with phase := .dEnd }
    else if s.work.clen = s.work.lmax then
      raiseFault (some .dsym) .corruptStream 2 0 (noteStart s).work.cstart (noteStart s)
    else emitMatch (matchSet s.mem (takeBit s).work.cand (takeBit s).work.clen) (takeBit s) := rfl

/-- What the match set says leads to one of three ends (R243). -/
theorem emitMatch_cases (P : State → Prop) (hits : List Symbol) (s : State) (goesOn : P { s with phase := .dBit })
    (emits : ∀ x, s.work.e.toNat ≠ Config.nMax → P (emitSymbol x s))
    (faults : ∀ f sub x, P (raiseFault (some .dsym) f sub x s.work.cstart s)) : P (emitMatch hits s) :=
  match hits with
  | [] => goesOn
  | [x] => iteInduction (motive := P) (fun _ => faults ..) (emits x)
  | _ :: _ :: _ => faults ..

theorem phaseDBit_cases (P : State → Prop) (s : State)
    (ends : s.work.t = s.bitlen → P { s with phase := .dEnd })
    (faults : P (raiseFault (some .dsym) .corruptStream 2 0 (noteStart s).work.cstart (noteStart s)))
    (takes : s.work.t ≠ s.bitlen → s.work.clen ≠ s.work.lmax → ∀ hits, P (emitMatch hits (takeBit s))) :
    P (phaseDBit s) :=
  iteInduction (motive := P) ends fun ht => iteInduction (motive := P) (fun _ => faults) fun hc => takes ht hc _

theorem phaseESym_cases (P : State → Prop) (s : State) (ends : s.work.j = s.symlen → P { s with phase := .eFin })
    (faults : ∀ f sub x idx, P (raiseFault (some .bit) f sub x idx s))
    (appends : s.work.j ≠ s.symlen →
      s.work.t.toNat + (cbAt s.mem (symAt s.mem s.work.j.toNat)).len.toNat ≤ Config.mMax → P (appendCode s)) :
    P (phaseESym s) :=
  iteInduction (motive := P) ends fun hj => iteInduction (motive := P) (fun _ => faults ..) fun _ =>
    iteInduction (motive := P) (fun _ => faults ..) fun ht => appends hj (Nat.le_of_not_lt ht)

/-- What an engine step leads to, phase by phase (R135, R136, R139, R140, R161, R177 to R181, R201 to R203, R222,
R241 to R245). -/
theorem engineStep_cases (P : State → Prop) (s : State) (idle : s.phase = .idle → P s)
    (dispatch : s.phase = .dispatch → P (phaseDispatch s)) (nRun : s.phase = .nRun → P (completeCommand s))
    (xClr : s.phase = .xClr → P (phaseXClr s)) (aClr : s.phase = .aClr → P (phaseAClr s))
    (aEnd : s.phase = .aCount → P (completeCommand s))
    (aCount : s.phase = .aCount → s.work.j ≠ s.symlen → P (countSymbol s))
    (bClr : s.phase = .bClr → P (phaseBClr s)) (bScan : s.phase = .bScan → P (phaseBScan s))
    (bFault : s.phase = .bCheck →
      P (raiseFault (some .tree) .invalidInput 0 0 0 (countLeaves s)))
    (bCheck : s.phase = .bCheck → s.nnodes ≠ 0 → P { countLeaves s with phase := .bMerge })
    (bEnd : s.phase = .bMerge → s.work.heapCnt = 1 → P { s with phase := .bRoot })
    (bMerge : s.phase = .bMerge → s.work.heapCnt ≠ 1 →
      P (allocNode (mergeRec s) { s with work := mergeWork s, phase := .bMerge }))
    (bRoot : s.phase = .bRoot → P (phaseBRoot s)) (cClr : s.phase = .cClr → P (phaseCClr s))
    (cCheck : s.phase = .cCheck → P { s with phase := .cRoot })
    (cFault : s.phase = .cCheck → P (raiseFault (some .cb) .invalidInput 0 0 0 s))
    (cSingle : s.phase = .cRoot →
      P (completeCommand { s with mem := setCb s.mem (nodeAt s.mem s.root.toNat).sym (codeEntry 1 0) }))
    (cRoot : s.phase = .cRoot → P { s with work := stkPush s.root 0 0 s.work, phase := .cWalk })
    (cEnd : s.phase = .cWalk → P (completeCommand (walkEntry s)))
    (cWalk : s.phase = .cWalk → P { walkEntry s with phase := .cWalk })
    (eClr : s.phase = .eClr → P (phaseEClr s)) (eSym : s.phase = .eSym → P (phaseESym s))
    (eFin : s.phase = .eFin → P (phaseEFin s)) (dClr : s.phase = .dClr → P (phaseDClr s))
    (dLmax : s.phase = .dLmax → P (phaseDLmax s)) (dBit : s.phase = .dBit → P (phaseDBit s))
    (dFault : s.phase = .dEnd → P (raiseFault (some .dsym) .corruptStream 1 0 s.work.cstart s))
    (dEnd : s.phase = .dEnd → P (completeCommand { s with dsymlen := s.work.e })) : P (engineStep s) := by
  cases h : s.phase <;>
    simp only [engineStep, systemStep, analyzeStep, buildStep, deriveStep, encodeStep, decodeStep, h]
  case aCount => exact iteInduction (motive := P) (fun _ => aEnd h) (aCount h)
  case bCheck => exact iteInduction (motive := P) (fun _ => bFault h) (bCheck h)
  case bMerge => exact iteInduction (motive := P) (bEnd h) (bMerge h)
  case cCheck => exact iteInduction (motive := P) (fun _ => cCheck h) fun _ => cFault h
  case cRoot => exact iteInduction (motive := P) (fun _ => cSingle h) fun _ => cRoot h
  case cWalk => exact iteInduction (motive := P) (fun _ => cEnd h) fun _ => cWalk h
  case dEnd => exact iteInduction (motive := P) (fun _ => dFault h) fun _ => dEnd h
  exacts [idle h, dispatch h, nRun h, xClr h, aClr h, bClr h, bScan h, bRoot h, cClr h, eClr h, eSym h, eFin h, dClr h,
    dLmax h, dBit h]

theorem engineStep_idle (s : State) (h : s.phase = .idle) : engineStep s = s := by simp [engineStep, h]

theorem engineStep_dispatch (s : State) (h : s.phase = .dispatch) : engineStep s = phaseDispatch s := by
  simp [engineStep, h]

/-! ## The control registers and the phase -/

/-- The registers a phase block writes only by completion or fault entry, and those it never writes. -/
noncomputable def controlRegs (s : State) :=
  (s.ie, s.cmd, s.busy, s.done, s.err, s.errinfo, s.errlog, s.op, s.opmask, s.schedule, s.response)

/-- What a step of a running command can do: it goes on in a phase that may follow, it completes (R134), or it raises a
fault (R278). -/
def StepResult (s u : State) : Prop :=
  (controlRegs u = controlRegs s ∧ u.phase ∈ nextPhases s.phase ∧ u.phase ≠ .idle) ∨
  (∃ t, controlRegs t = controlRegs s ∧ .idle ∈ nextPhases s.phase ∧ u = completeCommand t) ∨
  ∃ t d f sub x idx, controlRegs t = controlRegs s ∧ .idle ∈ nextPhases s.phase ∧ u = raiseFault d f sub x idx t

/-- A step that goes on: the phase it leaves and the one it enters. -/
theorem StepResult.to (p q : Phase) {s u : State} (hs : s.phase = p) (hc : controlRegs u = controlRegs s)
    (hu : u.phase = q) (hpq : q ∈ nextPhases p ∧ q ≠ .idle) : StepResult s u :=
  .inl ⟨hc, hs ▸ hu ▸ hpq.1, hu ▸ hpq.2⟩

theorem StepResult.completes (p : Phase) {s : State} (t : State) (hs : s.phase = p) (hc : controlRegs t = controlRegs s)
    (hp : .idle ∈ nextPhases p) : StepResult s (completeCommand t) := .inr (.inl ⟨t, hc, hs ▸ hp, rfl⟩)

theorem StepResult.faults (p : Phase) {s : State} (t : State) (hs : s.phase = p) (hc : controlRegs t = controlRegs s)
    (hp : .idle ∈ nextPhases p) (d : Option Artifact) (f : CmdFault) (sub : BitVec 4) (x : Symbol) (idx : BitVec 16) :
    StepResult s (raiseFault d f sub x idx t) := .inr (.inr ⟨t, d, f, sub, x, idx, hc, hs ▸ hp, rfl⟩)

theorem controlRegs_emptySelected (mask : BitVec 6) (a : Artifact) (s : State) :
    controlRegs (emptySelected mask a s) = controlRegs s :=
  iteInduction (motive := fun t => controlRegs t = controlRegs s) (fun _ => by cases a <;> rfl) fun _ => rfl

theorem controlRegs_scanLeaf (s : State) : controlRegs (scanLeaf s) = controlRegs s :=
  iteInduction (motive := fun t => controlRegs t = controlRegs s) (fun _ => rfl) fun _ => rfl

theorem controlRegs_walkEntry (s : State) : controlRegs (walkEntry s) = controlRegs s :=
  iteInduction (motive := fun t => controlRegs t = controlRegs s) (fun _ => rfl) fun _ => rfl

theorem emitMatch_result (hits : List Symbol) (s t : State) (h : s.phase = .dBit) (hc : controlRegs t = controlRegs s) :
    StepResult s (emitMatch hits t) :=
  emitMatch_cases (StepResult s) hits t (.to .dBit .dBit h hc rfl (by decide))
    (fun _ _ => .to .dBit .dBit h hc rfl (by decide)) fun _ _ _ => .faults .dBit t h hc (by decide) ..

/-- What an engine step of a running command can do (R134, R135, R278). -/
theorem engineStep_result (s : State) (hi : s.phase ≠ .idle) (hd : s.phase ≠ .dispatch) :
    StepResult s (engineStep s) :=
  engineStep_cases (StepResult s) s (idle := fun h => absurd h hi) (dispatch := fun h => absurd h hd)
    (nRun := fun h => .completes .nRun s h rfl (by decide))
    (xClr := fun h => .completes .xClr _ h (by simp only [controlRegs_emptySelected]) (by decide))
    (aClr := fun h => .to .aClr .aCount h rfl rfl (by decide))
    (aEnd := fun h => .completes .aCount s h rfl (by decide))
    (aCount := fun h _ => .to .aCount .aCount h rfl rfl (by decide))
    (bClr := fun h => .to .bClr .bScan h rfl rfl (by decide))
    (bScan := fun h =>
      if hi : s.work.i + 1 = Config.kMax then .to .bScan .bCheck h (controlRegs_scanLeaf s) (if_pos hi) (by decide)
      else .to .bScan .bScan h (controlRegs_scanLeaf s) (if_neg hi) (by decide))
    (bFault := fun h => .faults .bCheck (countLeaves s) h rfl (by decide) ..)
    (bCheck := fun h _ => .to .bCheck .bMerge h rfl rfl (by decide))
    (bEnd := fun h _ => .to .bMerge .bRoot h rfl rfl (by decide))
    (bMerge := fun h _ => .to .bMerge .bMerge h rfl rfl (by decide))
    (bRoot := fun h => .completes .bRoot _ h rfl (by decide))
    (cClr := fun h => .to .cClr .cCheck h rfl rfl (by decide))
    (cCheck := fun h => .to .cCheck .cRoot h rfl rfl (by decide))
    (cFault := fun h => .faults .cCheck s h rfl (by decide) ..)
    (cSingle := fun h => .completes .cRoot _ h rfl (by decide))
    (cRoot := fun h => .to .cRoot .cWalk h rfl rfl (by decide))
    (cEnd := fun h => .completes .cWalk _ h (controlRegs_walkEntry s) (by decide))
    (cWalk := fun h => .to .cWalk .cWalk h (controlRegs_walkEntry s) rfl (by decide))
    (eClr := fun h => .to .eClr .eSym h rfl rfl (by decide))
    (eSym := fun h => phaseESym_cases (StepResult s) s (fun _ => .to .eSym .eFin h rfl rfl (by decide))
      (.faults .eSym s h rfl (by decide) _) fun _ _ => .to .eSym .eSym h rfl rfl (by decide))
    (eFin := fun h => .completes .eFin _ h rfl (by decide))
    (dClr := fun h => .to .dClr .dLmax h rfl rfl (by decide))
    (dLmax := fun h =>
      if hi : s.work.i + 1 = Config.kMax then .to .dLmax .dBit h rfl (if_pos hi) (by decide)
      else .to .dLmax .dLmax h rfl (if_neg hi) (by decide))
    (dBit := fun h => phaseDBit_cases (StepResult s) s (fun _ => .to .dBit .dEnd h rfl rfl (by decide))
      (.faults .dBit (noteStart s) h rfl (by decide) ..) fun _ _ hits => emitMatch_result hits s _ h rfl)
    (dFault := fun h => .faults .dEnd s h rfl (by decide) ..)
    (dEnd := fun h => .completes .dEnd _ h rfl (by decide))

/-! ## A whole command -/

/-- Only the command's own phases, and IDLE, follow one of its phases (R135). -/
theorem phasesOf_closed (i : Instr) : ∀ p ∈ phasesOf i, ∀ q ∈ nextPhases p, q = .idle ∨ q ∈ phasesOf i := by
  cases i with
  | clear mask => exact (by decide : ∀ p ∈ [Phase.xClr], ∀ q ∈ nextPhases p, q = .idle ∨ q ∈ [Phase.xClr])
  | _ => decide

theorem phasesOf_running (i : Instr) : ∀ p ∈ phasesOf i, p ≠ .idle ∧ p ≠ .dispatch := by
  cases i with
  | clear mask => exact (by decide : ∀ p ∈ [Phase.xClr], p ≠ .idle ∧ p ≠ .dispatch)
  | _ => decide

theorem firstPhase_mem (i : Instr) : firstPhase i ∈ phasesOf i := by
  cases i <;> exact List.mem_cons_self

/-- The phase after a step is one that may follow (R135). -/
theorem StepResult.phase_mem {s u : State} (h : StepResult s u) : u.phase ∈ nextPhases s.phase := by
  rcases h with ⟨-, hp, -⟩ | ⟨t, -, hp, rfl⟩ | ⟨t, d, f, sub, x, idx, -, hp, rfl⟩ <;> exact hp

/-- The run behind a command (R138): its own engine steps from dispatch, within its step bound. -/
theorem exec_eq_run (i : Instr) (s : State) : ∃ f n,
    exec i s = commandOutcome (runToIdle f n (dispatchTo (opcodeOf i) (maskOf i) (firstPhase i) s)) ∧
      ∀ t : State, t.phase ∈ phasesOf i → f t = engineStep t :=
  match i with
  | .nop => ⟨_, _, exec_nop s, fun t h => (engineStep_nop t h).symm⟩
  | .analyze => ⟨_, _, exec_analyze s, fun t h => (engineStep_analyze t h).symm⟩
  | .build => ⟨_, _, exec_build s, fun t h => (engineStep_build t h).symm⟩
  | .derive => ⟨_, _, exec_derive s, fun t h => (engineStep_derive t h).symm⟩
  | .encode => ⟨_, _, exec_encode s, fun t h => (engineStep_encode t h).symm⟩
  | .decode => ⟨_, _, exec_decode s, fun t h => (engineStep_decode t h).symm⟩
  | .clear mask => ⟨_, _, exec_clear mask s, fun t h => (engineStep_clear t mask h).symm⟩

/-- The induction over a whole command: what holds at its dispatch and is kept by every engine step in its phases holds
when it ends. -/
theorem exec_induction (i : Instr) (s t : State) (P : State → Prop) (ht : exec i s = .next t)
    (start : P (dispatchTo (opcodeOf i) (maskOf i) (firstPhase i) s))
    (keeps : ∀ u : State, u.phase ∈ phasesOf i → P u → P (engineStep u)) : P t ∧ t.phase = .idle := by
  obtain ⟨f, n, he, hf⟩ := exec_eq_run i s
  rw [he, commandOutcome_eq_next] at ht
  obtain ⟨rfl, hidle⟩ := ht
  refine ⟨(runToIdle_keeps f (fun u => P u ∧ (u.phase = .idle ∨ u.phase ∈ phasesOf i)) ?_ n _
    ⟨start, .inr (firstPhase_mem i)⟩).1, hidle⟩
  rintro u hne ⟨hu, hp⟩
  have hmem := hp.resolve_left hne
  obtain ⟨hi, hd⟩ := phasesOf_running i _ hmem
  rw [hf u hmem]
  exact ⟨keeps u hmem hu, phasesOf_closed i _ hmem _ (engineStep_result u hi hd).phase_mem⟩

end Sys2Proof.Machine
end

section
/-! The block's invariant (R24, R35, R37, R45 to R48, R84), one part at a time: canonical arrays, ranges of the lengths and
cursors, the control registers; then every host action and every engine step keeps it. -/

namespace Sys2Proof.Machine

/-! ## Canonical arrays (log 1) -/

theorem wellKept_emptyArtifact (a : Artifact) (s : State) (h : WellKept s) : WellKept (emptyArtifact a s) :=
  ⟨wf_emptyArtifact a s h.1, (emptyArtifact_work a s).symm ▸ h.2⟩

theorem wellKept_raiseFault (d : Option Artifact) (f : CmdFault) (sub : BitVec 4) (x : Symbol) (i : BitVec 16)
    (s : State) (h : WellKept s) : WellKept (raiseFault d f sub x i s) :=
  ⟨wf_raiseFault d f sub x i s h.1, (raiseFault_work d f sub x i s).symm ▸ h.2⟩

theorem wellKept_emptySelected (mask : BitVec 6) (a : Artifact) (s : State) (h : WellKept s) :
    WellKept (emptySelected mask a s) :=
  iteInduction (motive := WellKept) (fun _ => wellKept_emptyArtifact a s h) fun _ => h

theorem wellKept_allocNode (r : NodeRec) (s : State) (h : WellKept s) : WellKept (allocNode r s) :=
  ⟨wf_setNode _ h.1 _ _, wf_heapInsert _ _ _ h.2.1, h.2.2⟩

theorem wellKept_scanLeaf (s : State) (h : WellKept s) : WellKept (scanLeaf s) :=
  iteInduction (motive := WellKept) (fun _ => wellKept_allocNode _ s h) fun _ => h

theorem wellKept_walkEntry (s : State) (h : WellKept s) : WellKept (walkEntry s) :=
  iteInduction (motive := WellKept) (fun _ => ⟨wf_setCb _ h.1 _ _, h.2⟩)
    fun _ => ⟨h.1, h.2.1, wf_stkPush _ _ _ _ (wf_stkPush _ _ _ _ h.2.2)⟩

theorem wellKept_emitMatch (hits : List Symbol) (s : State) (h : WellKept s) : WellKept (emitMatch hits s) :=
  emitMatch_cases WellKept hits s h (fun _ _ => ⟨wf_setDsym _ h.1 _ _, h.2⟩) fun _ _ _ => wellKept_raiseFault _ _ _ _ _ s h

/-- An engine step keeps every array canonical. -/
theorem wellKept_engineStep (s : State) (h : WellKept s) : WellKept (engineStep s) :=
  have hfault (t : State) (ht : WellKept t) (d f sub x i) := wellKept_raiseFault d f sub x i t ht
  have hsel (a : Artifact) (t : State) := wellKept_emptySelected s.opmask a t
  engineStep_cases WellKept s (idle := fun _ => h) (nRun := fun _ => h) (aEnd := fun _ => h)
    (dispatch := fun _ => by
      unfold phaseDispatch
      split
      exacts [h, hfault s h ..])
    (xClr := fun _ => hsel _ _ (hsel _ _ (hsel _ _ (hsel _ _ (hsel _ _ (hsel _ _ h))))))
    (aClr := fun _ => wellKept_emptyArtifact .freq s h)
    (aCount := fun _ _ => ⟨wf_setFreq _ h.1 _ _, h.2⟩)
    (bClr := fun _ => wellKept_emptyArtifact .tree s h)
    (bScan := fun _ => wellKept_scanLeaf s h)
    (bFault := fun _ => hfault (countLeaves s) h ..) (bCheck := fun _ _ => h) (bEnd := fun _ _ => h)
    (bMerge := fun _ _ => wellKept_allocNode _ _ ⟨h.1, wf_heapExtract _ _ (wf_heapExtract _ _ h.2.1), h.2.2⟩)
    (bRoot := fun _ => ⟨h.1, wf_heapExtract _ _ h.2.1, h.2.2⟩)
    (cClr := fun _ => wellKept_emptyArtifact .cb s h) (cCheck := fun _ => h) (cFault := fun _ => hfault s h ..)
    (cSingle := fun _ => ⟨wf_setCb _ h.1 _ _, h.2⟩) (cRoot := fun _ => ⟨h.1, h.2.1, wf_stkPush _ _ _ _ h.2.2⟩)
    (cEnd := fun _ => wellKept_walkEntry s h) (cWalk := fun _ => wellKept_walkEntry s h)
    (eClr := fun _ => wellKept_emptyArtifact .bit s h)
    (eSym := fun _ => phaseESym_cases WellKept s (fun _ => h) (hfault s h _)
      fun _ _ => ⟨wf_putBits _ h.1 _ _ _, h.2⟩)
    (eFin := fun _ => h) (dClr := fun _ => wellKept_emptyArtifact .dsym s h) (dLmax := fun _ => h)
    (dBit := fun _ => phaseDBit_cases WellKept s (fun _ => h) (hfault (noteStart s) h ..)
      fun _ _ hits => wellKept_emitMatch hits _ h)
    (dFault := fun _ => hfault s h ..) (dEnd := fun _ => h)

/-! ## Lengths and cursors in range -/

/-- What every phase keeps of the ranges (R45, R47, R48): the lengths, `i`, `j`, `t`, `e`, HEAP_CNT, CSTART, NNODES and
NLEAVES; CLEN and LMAX are in range by their width. -/
abbrev Bounds (s : State) : Prop :=
  LengthsInRange s ∧ s.work.i ≤ Config.kMax ∧ s.work.j.toNat ≤ Config.nMax ∧ s.work.t.toNat ≤ Config.mMax ∧
    s.work.e.toNat ≤ Config.nMax ∧ s.work.heapCnt ≤ Config.kMax ∧ s.work.cstart.toNat ≤ Config.mMax ∧
    s.nnodes.toNat ≤ Config.nodeMax ∧ s.nleaves.toNat ≤ Config.kMax

/-- What a phase needs to keep the cursors in their ranges. -/
def PhaseNeeds (p : Phase) (s : State) : Prop :=
  match p with
  | .aCount | .eSym => s.work.j ≤ s.symlen
  | .bScan => s.work.i < Config.kMax ∧ s.work.heapCnt = s.nnodes.toNat ∧ s.nnodes.toNat ≤ s.work.i
  | .bCheck => s.work.heapCnt = s.nnodes.toNat ∧ s.nnodes.toNat ≤ Config.kMax
  | .bMerge => 1 ≤ s.work.heapCnt ∧ s.nnodes.toNat + s.work.heapCnt = 2 * s.nleaves.toNat
  | .dLmax => s.work.i < Config.kMax ∧ s.work.clen = 0 ∧ s.work.t = 0
  | .dBit => s.work.t ≤ s.bitlen ∧ s.work.clen ≤ s.work.lmax
  | _ => True

/-- The lengths and cursors are in range, with what the phase needs. -/
abbrev InRange (s : State) : Prop := Bounds s ∧ PhaseNeeds s.phase s

theorem CodeLen.toNat_le (n : CodeLen) : n.toNat ≤ Config.codeMax := Nat.le_of_lt_succ n.isLt

theorem inRange_iff (s : State) : InRange s ↔ LengthsInRange s ∧ CursorsInRange s := by
  constructor
  · rintro ⟨⟨hl, bi, bj, bt, be, bc, bs, bn, bk⟩, hp⟩
    exact ⟨hl, bi, bj, bt, be, bc, CodeLen.toNat_le _, CodeLen.toNat_le _, bs, bn, bk, hp⟩
  · rintro ⟨hl, bi, bj, bt, be, bc, -, -, bs, bn, bk, hp⟩
    exact ⟨⟨hl, bi, bj, bt, be, bc, bs, bn, bk⟩, hp⟩

theorem bounds_emptyArtifact (a : Artifact) (s : State) (h : Bounds s) : Bounds (emptyArtifact a s) := by
  obtain ⟨⟨ls, lb, ld⟩, bi, bj, bt, be, bc, bs, bn, bk⟩ := h
  cases a with
  | freq | cb => exact ⟨⟨ls, lb, ld⟩, bi, bj, bt, be, bc, bs, bn, bk⟩
  | tree => exact ⟨⟨ls, lb, ld⟩, bi, bj, bt, be, bc, bs, Nat.zero_le _, Nat.zero_le _⟩
  | sym => exact ⟨⟨Nat.zero_le _, lb, ld⟩, bi, bj, bt, be, bc, bs, bn, bk⟩
  | bit => exact ⟨⟨ls, Nat.zero_le _, ld⟩, bi, bj, bt, be, bc, bs, bn, bk⟩
  | dsym => exact ⟨⟨ls, lb, Nat.zero_le _⟩, bi, bj, bt, be, bc, bs, bn, bk⟩

theorem bounds_emptySelected (mask : BitVec 6) (a : Artifact) (s : State) (h : Bounds s) :
    Bounds (emptySelected mask a s) :=
  iteInduction (motive := Bounds) (fun _ => bounds_emptyArtifact a s h) fun _ => h

theorem inRange_raiseFault (d : Option Artifact) (f : CmdFault) (sub : BitVec 4) (x : Symbol) (i : BitVec 16)
    (s : State) (h : Bounds s) : InRange (raiseFault d f sub x i s) := by
  have he : Bounds (emptyDest d s) := by
    cases d with
    | none => exact h
    | some a => exact bounds_emptyArtifact a s h
  exact ⟨he, trivial⟩

/-- A cursor below its limit may advance. -/
theorem toNat_succ_le {n : Nat} (a b : BitVec n) (h : a ≤ b) (hne : a ≠ b) : (a + 1).toNat ≤ b.toNat :=
  have hlt : a.toNat < b.toNat := lt_of_le_of_ne h fun he => hne (BitVec.eq_of_toNat_eq he)
  calc (a + 1).toNat ≤ a.toNat + (1 : BitVec n).toNat := Nat.mod_le _ _
    _ ≤ a.toNat + 1 := Nat.add_le_add_left (Nat.mod_le _ _) _
    _ ≤ b.toNat := hlt

/-- A code word that fits is appended within `t`'s range (R222, R224). -/
theorem toNat_add_len (t : BitPos) (n : CodeLen) (h : t.toNat + n.toNat ≤ Config.mMax) :
    (t + n.setWidth 16).toNat ≤ Config.mMax :=
  calc (t + n.setWidth 16).toNat ≤ t.toNat + (n.setWidth 16).toNat := Nat.mod_le _ _
    _ = t.toNat + n.toNat := by rw [BitVec.toNat_setWidth_of_le (by decide)]
    _ ≤ Config.mMax := h

/-- A record is allocated in the ranges when there is room for it. -/
theorem bounds_allocNode (r : NodeRec) (s : State) (hb : Bounds s) (hn : s.nnodes.toNat < Config.nodeMax)
    (hc : s.work.heapCnt < Config.kMax) :
    Bounds (allocNode r s) ∧ (allocNode r s).nnodes.toNat = s.nnodes.toNat + 1 := by
  have hn1 : (s.nnodes + 1).toNat = s.nnodes.toNat + 1 :=
    BitVec.toNat_add_of_lt (Nat.add_lt_of_lt_sub (hn.trans (by decide)))
  obtain ⟨hl, bi, bj, bt, be, bc, bs, bn, bk⟩ := hb
  exact ⟨⟨hl, bi, bj, bt, be, hc, bs, hn1 ▸ hn, bk⟩, hn1⟩

theorem inRange_phaseBScan (s : State) (hb : Bounds s) (hn : PhaseNeeds .bScan s) : InRange (phaseBScan s) := by
  obtain ⟨hi, hcnt, hle⟩ := hn
  have hleaf : Bounds (scanLeaf s) ∧ (scanLeaf s).work.heapCnt = (scanLeaf s).nnodes.toNat ∧
      (scanLeaf s).nnodes.toNat ≤ s.work.i + 1 := by
    have hroom : s.nnodes.toNat < Config.kMax := hle.trans_lt hi
    obtain ⟨ha, hn1⟩ := bounds_allocNode (leafRec (BitVec.ofNat 8 s.work.i) (freqAt s.mem (BitVec.ofNat 8 s.work.i))) s hb
      (hroom.trans (by decide)) (hcnt ▸ hroom)
    unfold scanLeaf
    split
    · exact ⟨ha, hn1 ▸ congrArg (· + 1) hcnt, hn1 ▸ Nat.succ_le_succ hle⟩
    · exact ⟨hb, hcnt, hle.trans (Nat.le_succ _)⟩
  obtain ⟨⟨hl, -, hb'⟩, hcnt', hle'⟩ := hleaf
  rw [phaseBScan_eq]
  by_cases hlast : s.work.i + 1 = Config.kMax
  · rw [if_pos hlast]; exact ⟨⟨hl, hi, hb'⟩, hcnt', hle'.trans hi⟩
  · rw [if_neg hlast]; exact ⟨⟨hl, hi, hb'⟩, lt_of_le_of_ne hi hlast, hcnt', hle'⟩

theorem countLeaves_toNat (s : State) (h : s.nnodes.toNat ≤ Config.kMax) :
    (countLeaves s).nleaves.toNat = s.nnodes.toNat :=
  (BitVec.toNat_setWidth ..).trans (Nat.mod_eq_of_lt (h.trans_lt (by decide)))

/-- A merge takes two roots and leaves one; there is a record for it (R180). -/
theorem merge_room {n c k : Nat} (h1 : 1 ≤ c) (hne : c ≠ 1) (hsum : n + c = 2 * k) (hk : k ≤ 256) :
    n < 511 ∧ n + 1 + (c - 1 - 1 + 1) = 2 * k := by omega

theorem inRange_merge (s : State) (hb : Bounds s) (hn : PhaseNeeds .bMerge s) (hne : s.work.heapCnt ≠ 1) :
    InRange (allocNode (mergeRec s) { s with work := mergeWork s, phase := .bMerge }) := by
  obtain ⟨hl, bi, bj, bt, be, bc, bs, bn, bk⟩ := hb
  obtain ⟨hroom, hsum⟩ := merge_room hn.1 hne hn.2 bk
  have hcnt : (mergeWork s).heapCnt < Config.kMax :=
    lt_of_le_of_lt (Nat.sub_le _ 1) (lt_of_lt_of_le (Nat.sub_lt hn.1 Nat.one_pos) bc)
  obtain ⟨ha, hn1⟩ := bounds_allocNode (mergeRec s) { s with work := mergeWork s, phase := .bMerge }
    ⟨hl, bi, bj, bt, be, hcnt.le, bs, bn, bk⟩ hroom hcnt
  exact ⟨ha, Nat.succ_pos _, hn1 ▸ hsum⟩

theorem bounds_walkEntry (s : State) (h : Bounds s) : Bounds (walkEntry s) :=
  iteInduction (motive := Bounds) (fun _ => h) fun _ => h

theorem inRange_phaseDLmax (s : State) (hb : Bounds s) (hn : PhaseNeeds .dLmax s) : InRange (phaseDLmax s) := by
  obtain ⟨hi, hc, ht⟩ := hn
  refine ⟨⟨hb.1, hi, hb.2.2⟩, ?_⟩
  by_cases hlast : s.work.i + 1 = Config.kMax
  · rw [show (phaseDLmax s).phase = .dBit from if_pos hlast]
    exact ⟨(congrArg BitVec.toNat ht).trans_le (Nat.zero_le _), (congrArg BitVec.toNat hc).trans_le (Nat.zero_le _)⟩
  · rw [show (phaseDLmax s).phase = .dLmax from if_neg hlast]
    exact ⟨lt_of_le_of_ne hi hlast, hc, ht⟩

theorem inRange_emitMatch (hits : List Symbol) (s : State) (hb : Bounds s) (hn : PhaseNeeds .dBit s) :
    InRange (emitMatch hits s) := by
  refine emitMatch_cases InRange hits s ⟨hb, hn⟩ (fun x hne => ?_) fun _ _ _ => inRange_raiseFault _ _ _ _ _ s hb
  obtain ⟨hl, bi, bj, bt, be, bc, bs, bn, bk⟩ := hb
  have he : s.work.e.toNat + 1 ≤ Config.nMax := lt_of_le_of_ne be hne
  exact ⟨⟨hl, bi, bj, bt, (Nat.mod_le _ _).trans he, bc, bs, bn, bk⟩, hn.1, Nat.zero_le _⟩

theorem inRange_phaseDBit (s : State) (hb : Bounds s) (hn : PhaseNeeds .dBit s) : InRange (phaseDBit s) := by
  obtain ⟨hl, bi, bj, bt, be, bc, bs, bn, bk⟩ := id hb
  have hstart : (takeBit s).work.cstart.toNat ≤ Config.mMax :=
    iteInduction (motive := fun c : BitPos => c.toNat ≤ Config.mMax) (fun _ => bt) fun _ => bs
  refine phaseDBit_cases InRange s (fun _ => ⟨hb, trivial⟩)
    (inRange_raiseFault _ _ _ _ _ (noteStart s) ⟨hl, bi, bj, bt, be, bc, hstart, bn, bk⟩) fun htne hcne hits => ?_
  have ht := toNat_succ_le _ _ hn.1 htne
  exact inRange_emitMatch hits _ ⟨hl, bi, bj, ht.trans hl.2.1, be, bc, hstart, bn, bk⟩ ⟨ht, toNat_succ_le _ _ hn.2 hcne⟩

/-- An engine step keeps the lengths and cursors in range. -/
theorem inRange_engineStep (s : State) (h : InRange s) : InRange (engineStep s) := by
  obtain ⟨hb, hn⟩ := h
  obtain ⟨⟨ls, lb, ld⟩, bi, bj, bt, be, bc, bs, bn, bk⟩ := id hb
  have hneeds (p : Phase) (hp : s.phase = p) : PhaseNeeds p s := hp ▸ hn
  have hsel (a : Artifact) (t : State) := bounds_emptySelected s.opmask a t
  have hleaves (hle : s.nnodes.toNat ≤ Config.kMax) : Bounds (countLeaves s) :=
    ⟨⟨ls, lb, ld⟩, bi, bj, bt, be, bc, bs, bn, (countLeaves_toNat s hle).le.trans hle⟩
  exact engineStep_cases InRange s (idle := fun _ => ⟨hb, hn⟩) (nRun := fun _ => ⟨hb, trivial⟩)
    (aEnd := fun _ => ⟨hb, trivial⟩)
    (dispatch := fun _ => by
      unfold phaseDispatch
      split
      next i _ => exact ⟨hb, by cases i <;> trivial⟩
      next => exact inRange_raiseFault _ _ _ _ _ s hb)
    (xClr := fun _ => ⟨hsel _ _ (hsel _ _ (hsel _ _ (hsel _ _ (hsel _ _ (hsel _ _ hb))))), trivial⟩)
    (aClr := fun _ => ⟨⟨⟨ls, lb, ld⟩, bi, Nat.zero_le _, bt, be, bc, bs, bn, bk⟩, Nat.zero_le _⟩)
    (aCount := fun hp hne =>
      have hj := toNat_succ_le _ _ (hneeds .aCount hp) hne
      ⟨⟨⟨ls, lb, ld⟩, bi, hj.trans ls, bt, be, bc, bs, bn, bk⟩, hj⟩)
    (bClr := fun _ => ⟨⟨⟨ls, lb, ld⟩, Nat.zero_le _, bj, bt, be, Nat.zero_le _, bs, Nat.zero_le _, Nat.zero_le _⟩,
      Nat.zero_lt_succ _, rfl, le_rfl⟩)
    (bScan := fun hp => inRange_phaseBScan s hb (hneeds .bScan hp))
    (bFault := fun hp => inRange_raiseFault _ _ _ _ _ _ (hleaves (hneeds .bCheck hp).2))
    (bCheck := fun hp hne =>
      have ⟨hcnt, hle⟩ := hneeds .bCheck hp
      have hsum : s.nnodes.toNat + s.work.heapCnt = 2 * (countLeaves s).nleaves.toNat := by
        rw [countLeaves_toNat s hle, hcnt, Nat.two_mul]
      ⟨hleaves hle, hcnt ▸ Nat.pos_of_ne_zero fun h0 => hne (BitVec.eq_of_toNat_eq h0), hsum⟩)
    (bEnd := fun _ _ => ⟨hb, trivial⟩)
    (bMerge := fun hp => inRange_merge s hb (hneeds .bMerge hp))
    (bRoot := fun _ => ⟨⟨⟨ls, lb, ld⟩, bi, bj, bt, be, (Nat.sub_le _ 1).trans bc, bs, bn, bk⟩, trivial⟩)
    (cClr := fun _ => ⟨hb, trivial⟩) (cCheck := fun _ => ⟨hb, trivial⟩)
    (cFault := fun _ => inRange_raiseFault _ _ _ _ _ s hb) (cSingle := fun _ => ⟨hb, trivial⟩)
    (cRoot := fun _ => ⟨hb, trivial⟩) (cEnd := fun _ => ⟨bounds_walkEntry s hb, trivial⟩)
    (cWalk := fun _ => ⟨bounds_walkEntry s hb, trivial⟩)
    (eClr := fun _ => ⟨⟨⟨ls, Nat.zero_le _, ld⟩, bi, Nat.zero_le _, Nat.zero_le _, be, bc, bs, bn, bk⟩, Nat.zero_le _⟩)
    (eSym := fun hp => phaseESym_cases InRange s (fun _ => ⟨hb, trivial⟩)
      (fun _ _ _ _ => inRange_raiseFault _ _ _ _ _ s hb) fun hne hfit =>
        have hj := toNat_succ_le _ _ (hneeds .eSym hp) hne
        ⟨⟨⟨ls, lb, ld⟩, bi, hj.trans ls, toNat_add_len _ _ hfit, be, bc, bs, bn, bk⟩, hj⟩)
    (eFin := fun _ => ⟨⟨⟨ls, bt, ld⟩, bi, bj, bt, be, bc, bs, bn, bk⟩, trivial⟩)
    (dClr := fun _ => ⟨⟨⟨ls, lb, Nat.zero_le _⟩, Nat.zero_le _, bj, Nat.zero_le _, Nat.zero_le _, bc, Nat.zero_le _, bn, bk⟩,
      Nat.zero_lt_succ _, rfl, rfl⟩)
    (dLmax := fun hp => inRange_phaseDLmax s hb (hneeds .dLmax hp))
    (dBit := fun hp => inRange_phaseDBit s hb (hneeds .dBit hp))
    (dFault := fun _ => inRange_raiseFault _ _ _ _ _ s hb)
    (dEnd := fun _ => ⟨⟨⟨ls, lb, be⟩, bi, bj, bt, be, bc, bs, bn, bk⟩, trivial⟩)
/-! ## The control registers -/

/-- BUSY exactly while the engine has a step (R24), and no report while BUSY (R35). -/
abbrev FlagsSound (s : State) : Prop :=
  s.busy = !s.phase.isIdle ∧ (s.busy = true → s.done = false ∧ s.err = 0 ∧ s.errinfo = 0)

/-- Only defined bits in ERRLOG and fault codes in ERR (R37, R271). -/
abbrev LogSound (s : State) : Prop := s.errlog &&& ~~~0x0000003E#32 = 0 ∧ s.err.toNat ≤ 5

/-- The running command is the one CMD holds (R84, R133). -/
abbrev CommandSound (s : State) : Prop :=
  s.phase ≠ .idle → s.phase ≠ .dispatch →
    ∃ i, decode s.cmd = .ok i ∧ s.phase ∈ phasesOf i ∧ s.op = opcodeOf i ∧ s.opmask = maskOf i

/-- The part of `BlockSound` about the control registers. -/
abbrev ControlSound (s : State) : Prop := FlagsSound s ∧ LogSound s ∧ CommandSound s

/-- The invariant of the block in three parts. -/
theorem blockSound_iff (s : State) : BlockSound s ↔ WellKept s ∧ InRange s ∧ ControlSound s := by
  rw [inRange_iff]
  constructor
  · rintro ⟨hk, h1, h2, h3, h4, hl, hc, h5⟩
    exact ⟨hk, ⟨hl, hc⟩, ⟨h1, h2⟩, ⟨h3, h4⟩, h5⟩
  · rintro ⟨hk, ⟨hl, hc⟩, ⟨h1, h2⟩, ⟨h3, h4⟩, h5⟩
    exact ⟨hk, h1, h2, h3, h4, hl, hc, h5⟩

theorem Phase.isIdle_eq_false (p : Phase) (h : p ≠ .idle) : p.isIdle = false :=
  Bool.eq_false_iff.2 fun hi => h ((Phase.isIdle_iff p).1 hi)

theorem busy_of_running (s : State) (h : FlagsSound s) (hi : s.phase ≠ .idle) : s.busy = true := by
  rw [h.1, Phase.isIdle_eq_false _ hi]; rfl

theorem idle_of_not_busy (s : State) (h : FlagsSound s) (hb : s.busy = false) : s.phase = .idle := by
  by_contra hi
  exact absurd (busy_of_running s h hi) (by simp [hb])

theorem faultCode_le (f : CmdFault) : (faultCode f).toNat ≤ 5 := by cases f <;> decide

/-- A fault's bit of ERRLOG is a defined one (R37, R271). -/
theorem logFault_defined (log : Word) (f : CmdFault) (h : log &&& ~~~0x0000003E#32 = 0) :
    logFault log f &&& ~~~0x0000003E#32 = 0 := by
  have hbit : 1#32 <<< (faultCode f).toNat &&& ~~~0x0000003E#32 = 0 := by cases f <;> decide
  unfold logFault
  rw [BitVec.and_or_distrib_right, h, hbit]; rfl

/-- An idle block with BUSY clear, whatever it reports. -/
theorem controlSound_of_idle (s : State) (hi : s.phase = .idle) (hb : s.busy = false) (hl : LogSound s) :
    ControlSound s :=
  ⟨⟨by rw [hi, hb]; rfl, fun h => absurd h (by simp [hb])⟩, hl, fun h => absurd hi h⟩

theorem controlSound_raiseFault (d : Option Artifact) (f : CmdFault) (sub : BitVec 4) (x : Symbol)
    (idx : BitVec 16) (s : State) (h : LogSound s) : ControlSound (raiseFault d f sub x idx s) :=
  controlSound_of_idle _ rfl rfl ⟨logFault_defined _ f h.1, faultCode_le f⟩

/-- A step of a running command keeps the control registers sound. -/
theorem StepResult.controlSound {s u : State} (hr : StepResult s u) (h : ControlSound s) (hi : s.phase ≠ .idle)
    (hd : s.phase ≠ .dispatch) : ControlSound u := by
  obtain ⟨hf, hlog, hcommand⟩ := h
  obtain ⟨i, hdecode, hmem, hop, hmask⟩ := hcommand hi hd
  have hbusy := busy_of_running s hf hi
  have hlog' (t : State) (hc : controlRegs t = controlRegs s) : LogSound t := by
    simp only [controlRegs, Prod.mk.injEq] at hc
    obtain ⟨-, -, -, -, eerr, -, elog, -⟩ := hc
    exact ⟨elog ▸ hlog.1, eerr ▸ hlog.2⟩
  rcases hr with ⟨hc, hnext, hrun⟩ | ⟨t, hc, -, rfl⟩ | ⟨t, d, f, sub, x, idx, hc, -, rfl⟩
  · have hl := hlog' u hc
    simp only [controlRegs, Prod.mk.injEq] at hc
    obtain ⟨-, ecmd, ebusy, edone, eerr, einfo, -, eop, emask, -⟩ := hc
    refine ⟨⟨by rw [ebusy, hbusy, Phase.isIdle_eq_false _ hrun]; rfl, fun _ => ?_⟩, hl, fun _ _ => ?_⟩
    · rw [edone, eerr, einfo]; exact hf.2 hbusy
    · exact ⟨i, ecmd ▸ hdecode, (phasesOf_closed i _ hmem _ hnext).resolve_left hrun, eop.trans hop, emask.trans hmask⟩
  · exact controlSound_of_idle _ rfl rfl (hlog' t hc)
  · exact controlSound_raiseFault _ _ _ _ _ _ (hlog' t hc)

/-- Dispatch latches the command CMD holds, or ends an illegal word (R133, R276). -/
theorem controlSound_phaseDispatch (s : State) (h : ControlSound s) (hp : s.phase = .dispatch) :
    ControlSound (phaseDispatch s) := by
  obtain ⟨hf, hlog, -⟩ := h
  have hbusy := busy_of_running s hf (by rw [hp]; decide)
  unfold phaseDispatch
  split
  next i hi =>
    have hrun := (phasesOf_running i _ (firstPhase_mem i)).1
    refine ⟨⟨?_, hf.2⟩, hlog, fun _ _ => ⟨i, hi, firstPhase_mem i, rfl, rfl⟩⟩
    rw [dispatchTo_phase, dispatchTo_busy, hbusy, Phase.isIdle_eq_false _ hrun]; rfl
  next => exact controlSound_raiseFault _ _ _ _ _ _ hlog

theorem controlSound_engineStep (s : State) (h : ControlSound s) : ControlSound (engineStep s) := by
  by_cases hi : s.phase = .idle
  · rw [engineStep_idle s hi]; exact h
  by_cases hd : s.phase = .dispatch
  · rw [engineStep_dispatch s hd]; exact controlSound_phaseDispatch s h hd
  · exact (engineStep_result s hi hd).controlSound h hi hd

/-- An engine step keeps the block sound. -/
theorem blockSound_engineStep (s : State) (h : BlockSound s) : BlockSound (engineStep s) := by
  obtain ⟨hk, hr, hc⟩ := (blockSound_iff s).1 h
  exact (blockSound_iff _).2 ⟨wellKept_engineStep s hk, inRange_engineStep s hr, controlSound_engineStep s hc⟩

/-- A whole command keeps the block sound (R138). -/
theorem blockSound_exec (i : Instr) (s t : State) (h : BlockSound s) (hp : s.phase = .dispatch)
    (hi : decode s.cmd = .ok i) (ht : exec i s = .next t) : BlockSound t := by
  have hdispatch : engineStep s = dispatchTo (opcodeOf i) (maskOf i) (firstPhase i) s := by
    rw [engineStep_dispatch s hp, phaseDispatch, hi]
  exact (exec_induction i s t BlockSound ht (hdispatch ▸ blockSound_engineStep s h)
    fun u _ => blockSound_engineStep u).1

/-! ## The host's side -/

/-- After reset the block is sound (R50). -/
theorem blockSound_hardReset (s : State) : BlockSound (hardReset s) :=
  (blockSound_iff _).2
    ⟨⟨wf_empty, Store.WF_nil _ _, Store.WF_nil _ _⟩,
      ⟨⟨⟨Nat.zero_le _, Nat.zero_le _, Nat.zero_le _⟩, Nat.zero_le _, Nat.zero_le _, Nat.zero_le _, Nat.zero_le _,
        Nat.zero_le _, Nat.zero_le _, Nat.zero_le _, Nat.zero_le _⟩, trivial⟩,
      controlSound_of_idle _ rfl rfl ⟨BitVec.zero_and, Nat.zero_le _⟩⟩

/-- The idle block stays sound when the host stores in a memory or in a length register (R70, R79). -/
theorem blockSound_of_idle_write (s : State) (m : Memory) (sl : SymPos) (bl : BitPos) (h : BlockSound s)
    (hb : s.busy = false) (hm : m.wf) (hsl : sl.toNat ≤ Config.nMax) (hbl : bl.toNat ≤ Config.mMax) :
    BlockSound { s with mem := m, symlen := sl, bitlen := bl } := by
  obtain ⟨hk, ⟨⟨⟨-, -, ld⟩, hbounds⟩, -⟩, hc⟩ := (blockSound_iff s).1 h
  have hneeds (t : State) : PhaseNeeds s.phase t := (idle_of_not_busy s hc.1 hb).symm ▸ trivial
  exact (blockSound_iff _).2 ⟨⟨hm, hk.2⟩, ⟨⟨⟨hsl, hbl, ld⟩, hbounds⟩, hneeds _⟩, hc⟩

/-- Acceptance of a command word (R132). -/
theorem blockSound_acceptCommand (w : Word) (s : State) (h : BlockSound s) : BlockSound (acceptCommand w s) := by
  obtain ⟨hk, ⟨hb, -⟩, -, hlog, -⟩ := (blockSound_iff s).1 h
  exact (blockSound_iff _).2
    ⟨hk, ⟨hb, trivial⟩, ⟨rfl, fun _ => ⟨rfl, rfl, rfl⟩⟩, ⟨hlog.1, Nat.zero_le _⟩, fun _ hd => absurd rfl hd⟩

/-- ERRLOG loses bits and gains none by a write (R37). -/
theorem ackErrlog_defined (log v : Word) (h : log &&& ~~~0x0000003E#32 = 0) :
    ackErrlog log v &&& ~~~0x0000003E#32 = 0 := by
  unfold ackErrlog
  rw [BitVec.and_assoc, BitVec.and_comm (~~~v), ← BitVec.and_assoc, h]
  exact BitVec.zero_and

/-- A register write in range stores its value (R79). -/
theorem toNat_setWidth_of_le {n m : Nat} (v : BitVec n) (b : Nat) (hv : v.toNat ≤ b) :
    (v.setWidth m).toNat ≤ b := by
  rw [BitVec.toNat_setWidth]; exact (Nat.mod_le _ _).trans hv

/-- Every write the window serves keeps the block sound (R67 to R79). -/
theorem blockSound_writeLoc (l : Loc) (v : Word) (s : State) (h : BlockSound s)
    (hbusy : s.busy = true → writableBusy l = true) (hr : inRange l v = true) : BlockSound (writeLoc l v s) := by
  obtain ⟨hk, hrange, hc⟩ := (blockSound_iff s).1 h
  obtain ⟨⟨ls, lb, -⟩, -⟩ := hrange.1
  have hidle (hw : writableBusy l = false) : s.busy = false := by
    by_contra hb
    rw [hbusy (by simpa using hb)] at hw; cases hw
  have hmem (hw : writableBusy l = false) (m : Memory) (hm : m.wf) : BlockSound { s with mem := m } :=
    blockSound_of_idle_write s m _ _ h (hidle hw) hm ls lb
  cases l with
  | ctrl =>
    show BlockSound (if v.getLsbD 31 then hardReset s else { s with ie := v.getLsbD 0 })
    split
    exacts [blockSound_hardReset s, h]
  | cmd => exact blockSound_acceptCommand v s h
  | status =>
    refine (blockSound_iff _).2 ⟨hk, hrange, ⟨hc.1.1, fun hb => ?_⟩, hc.2⟩
    obtain ⟨hdone, hrest⟩ := hc.1.2 hb
    exact ⟨by show ackDone s.done v = false; simp [ackDone, hdone], hrest⟩
  | errlog =>
    obtain ⟨hf, ⟨hlog, hcode⟩, hcommand⟩ := hc
    exact (blockSound_iff _).2 ⟨hk, hrange, hf, ⟨ackErrlog_defined _ v hlog, hcode⟩, hcommand⟩
  | symlen =>
    exact blockSound_of_idle_write s _ _ _ h (hidle rfl) hk.1
      (toNat_setWidth_of_le v _ (of_decide_eq_true hr)) lb
  | bitlen =>
    exact blockSound_of_idle_write s _ _ _ h (hidle rfl) hk.1 ls
      (toNat_setWidth_of_le v _ (of_decide_eq_true hr))
  | freq x => exact hmem rfl _ (wf_setFreq _ hk.1 _ _)
  | bitbuf w => exact hmem rfl _ (wf_setBitWord _ hk.1 _ _)
  | cbCtl x => exact hmem rfl _ (wf_setCb _ hk.1 _ _)
  | cbCode x w => exact hmem rfl _ (wf_setCb _ hk.1 _ _)
  | symbuf j => exact hmem rfl _ (wf_setSym _ hk.1 _ _)
  | id | param0 | param1 | errinfo | dsymlen | root | nnodes | nleaves | node | dsym => exact h

/-- Every action of the host keeps the block sound. -/
theorem blockSound_serveHost (a : HostAction) (s : State) (h : BlockSound s) : BlockSound (serveHost a s) := by
  cases a with
  | read size off => exact h
  | write size off v =>
    cases hw : memWrite size off v s with
    | none => rw [serveHost_refused _ _ _ _ hw]; exact h
    | some t =>
      rw [serveHost_written _ _ _ _ _ hw]
      obtain ⟨l, -, -, hbusy, -, hr, rfl⟩ := (memWrite_eq_some size off v s t).1 hw
      exact blockSound_writeLoc l v s h hbusy hr
  | hardReset => exact blockSound_hardReset s

/-- The engine's turn keeps the block sound (R138). -/
theorem blockSound_engineRun (s t : State) (h : BlockSound s) (ht : engineRun s = .next t) : BlockSound t := by
  unfold engineRun at ht
  split at ht
  next => cases ht; exact h
  next hp =>
    split at ht
    next i hi => exact blockSound_exec i s t h hp hi ht
    next e he =>
      cases ht
      have : engineStep s = raiseIllegal s := by rw [engineStep_dispatch s hp, phaseDispatch, he]
      exact this ▸ blockSound_engineStep s h
  next => cases ht; exact blockSound_engineStep s h

/-- Settles O56: each of the next events, a host action, an engine step or the engine's turn, keeps the three parts
of the invariant. -/
theorem everyStepKeepsTheBlockSound : Obligations.EveryStepKeepsTheBlockSound := by
  unfold Obligations.EveryStepKeepsTheBlockSound
  intro s t h ht
  have hrest (rest : List Event) : BlockSound { s with schedule := rest } := h
  unfold step nextEvent at ht
  split at ht
  next => exact blockSound_engineRun s t h ht
  next a rest _ => cases ht; exact blockSound_serveHost a _ (hrest rest)
  next rest _ => cases ht; exact blockSound_engineStep _ (hrest rest)
  next rest _ => exact blockSound_engineRun _ t (hrest rest) ht

/-- Settles O57: after reset nothing is stored, so every bound and the absence of a tree are immediate. -/
theorem resetIsSound : Obligations.ResetIsSound :=
  ⟨blockSound_hardReset State.reset, fun _ => ⟨rfl, rfl, rfl, fun _ _ => rfl⟩, fun h => absurd h (by decide),
    fun _ h => absurd h (by simp [cbAt, State.reset, Memory.empty, CodeEntry.zero]),
    Nat.zero_le _, Nat.zero_le _, Nat.zero_le _⟩

end Sys2Proof.Machine
end
section
/-! The address map (R62, R75, R76, R86): the word number of every location, what the map finds at a word, and which
words are holes. The proofs follow the branches of the map and of the register table. -/

namespace Sys2Proof.Machine

/-- The word number of a location in the window, its offset divided by 4 (R62, R63). -/
noncomputable def Loc.wordNo : Loc → Nat
  | .id => 0
  | .param0 => 1
  | .param1 => 2
  | .ctrl => 3
  | .cmd => 4
  | .status => 5
  | .errinfo => 6
  | .errlog => 7
  | .symlen => 8
  | .bitlen => 9
  | .dsymlen => 10
  | .root => 11
  | .nnodes => 12
  | .nleaves => 13
  | .freq x => 0x100 + x.toNat
  | .bitbuf w => 0x400 + w
  | .node n f => 0x800 + (4 * n + f.ctorIdx)
  | .cbCtl x => 0x1000 + (16 * x.toNat + 0)
  | .cbCode x w => 0x1000 + (16 * x.toNat + (w + 1))
  | .symbuf j => 0x2000 + j
  | .dsym j => 0x3000 + j

/-- A location is a word of an element of an array (R39 to R44). -/
def Loc.InArray : Loc → Prop
  | .freq _ | .cbCtl _ => True
  | .bitbuf w => w < 0x400
  | .node n _ => n < 0x1FF
  | .cbCode _ w => w < 8
  | .symbuf j | .dsym j => j < 0x1000
  | _ => False

/-- There are seven kinds of them. -/
theorem Loc.InArray.elim {P : Loc → Prop} (freq : ∀ x, P (.freq x)) (bitbuf : ∀ w, w < 0x400 → P (.bitbuf w))
    (node : ∀ n f, n < 0x1FF → P (.node n f)) (cbCtl : ∀ x, P (.cbCtl x)) (cbCode : ∀ x w, w < 8 → P (.cbCode x w))
    (symbuf : ∀ j, j < 0x1000 → P (.symbuf j)) (dsym : ∀ j, j < 0x1000 → P (.dsym j)) {l : Loc} : l.InArray → P l :=
  l.rec (motive := fun l => l.InArray → P l) False.elim False.elim False.elim False.elim False.elim False.elim
    False.elim False.elim False.elim False.elim False.elim False.elim False.elim False.elim (fun x _ => freq x) bitbuf
    node (fun x _ => cbCtl x) cbCode symbuf dsym

/-- The location is at the word: a register of the table, or a word of an array. -/
def Found (a : Nat) (l : Loc) : Prop := l.wordNo = a ∧ (l.InArray ∨ a < 14 ∧ regLoc a = some l)

/-- What the map may find at a word: nothing in a hole, or a location that is there. -/
def MapSpec (a : Nat) (o : Option Loc) : Prop := (o = none → Unmapped (4 * a)) ∧ ∀ l, o = some l → Found a l

theorem mapSpec_none {a : Nat} (h : Unmapped (4 * a)) : MapSpec a none :=
  ⟨fun _ => h, fun l hl => absurd hl.symm (Option.some_ne_none l)⟩

theorem mapSpec_array {a : Nat} {l : Loc} (hl : l.InArray) (hw : l.wordNo = a) : MapSpec a (some l) :=
  ⟨fun h => absurd h (Option.some_ne_none l), fun _ h => Option.some.inj h ▸ ⟨hw, .inl hl⟩⟩

/-! ## The registers (R63) -/

/-- What holds of each register by evaluation holds of the one at a word. -/
theorem register_forall (P : Nat → Loc → Prop) [∀ k l, Decidable (P k l)]
    (hP : (List.range 14).all (fun k => (regLoc k).all fun l => decide (P k l)) = true) {a : Nat} {l : Loc}
    (ha : a < 14) (hl : regLoc a = some l) : P a l := by
  have h := List.all_eq_true.1 hP a (List.mem_range.2 ha)
  rw [hl] at h
  exact of_decide_eq_true h

theorem regLoc_of_le {a : Nat} (h : 14 ≤ a) : regLoc a = none :=
  have ⟨_, hk⟩ := Nat.exists_eq_add_of_le' h
  hk ▸ rfl

theorem four_mul_le {a b : Nat} (h : a ≤ b) : 4 * a ≤ 4 * b := Nat.mul_le_mul_left 4 h

theorem four_mul_lt {a b : Nat} (h : a < b) : 4 * a < 4 * b := Nat.mul_lt_mul_of_pos_left h (Nat.succ_pos 3)

theorem regLoc_spec {a : Nat} (h : a < 0x100) : MapSpec a (regLoc a) := by
  rcases Nat.lt_or_ge a 14 with ha | ha
  · have hmapped : (List.range 14).all (fun k => (regLoc k).isSome) = true := rfl
    have hsome := Option.isSome_iff_ne_none.1 (List.all_eq_true.1 hmapped a (List.mem_range.2 ha))
    exact ⟨fun hn => absurd hn hsome, fun _ hl => ⟨register_forall (fun k l => l.wordNo = k) rfl ha hl, .inr ⟨ha, hl⟩⟩⟩
  · exact regLoc_of_le ha ▸ mapSpec_none (.inl ⟨four_mul_le ha, four_mul_lt h⟩)

/-! ## The codebook's words (R76) -/

/-- An offset's place in its codebook entry is that of its word. -/
theorem entry_mod (a : Nat) : (4 * a - 0x4000) % 64 = 4 * ((a - 0x1000) % 16) := by
  rw [← Nat.mul_mod_mul_left 4 _ 16, Nat.mul_sub]

/-- Word `w` of entry `k` lies in the codebook. -/
theorem entry_lt {k w : Nat} (hk : k < 0x100) (hw : w < 16) : 0x1000 + (16 * k + w) < 0x2000 :=
  Nat.add_lt_add_left ((Nat.add_lt_add_left hw _).trans_le (Nat.mul_le_mul_left 16 hk)) 0x1000

/-- The offset of word `w` of entry `k`. -/
theorem entry_offset {k w a : Nat} (hk : k < 0x100) (hw : w < 16) (ha : 0x1000 + (16 * k + w) = a) :
    (4 * 0x1000 ≤ 4 * a ∧ 4 * a < 4 * 0x2000) ∧ (4 * a - 0x4000) % 64 = 4 * w := by
  subst ha
  refine ⟨⟨four_mul_le (Nat.le_add_right ..), four_mul_lt (entry_lt hk hw)⟩, ?_⟩
  rw [entry_mod, Nat.add_sub_cancel_left, Nat.mul_add_mod, Nat.mod_eq_of_lt hw]

theorem cbLoc_spec (x : Symbol) : ∀ (w : Nat) {a : Nat}, w < 16 → 0x1000 + (16 * x.toNat + w) = a → MapSpec a (cbLoc x w)
  | 0, _, _, ha => mapSpec_array (l := .cbCtl x) trivial ha
  | _ + 1, a, h, ha =>
    iteInduction (motive := MapSpec a) (fun h8 => mapSpec_array h8 ha) fun h8 =>
      have ⟨⟨hlo, hhi⟩, hm⟩ := entry_offset x.isLt h ha
      mapSpec_none (.inr (.inr (.inr ⟨hlo, hhi, hm ▸ four_mul_le (Nat.succ_le_succ (Nat.le_of_not_lt h8))⟩)))

/-! ## The map (R62) -/

theorem ctorIdx_nodeWordOf {r : Nat} (h : r < 4) : (nodeWordOf r).ctorIdx = r :=
  match r with
  | 0 | 1 | 2 | 3 => rfl
  | _ + 4 => absurd h (Nat.not_lt.2 (Nat.le_add_left ..))

theorem toNat_ofNat_symbol {k : Nat} (h : k < 0x100) : (BitVec.ofNat 8 k).toNat = k := Nat.mod_eq_of_lt h

/-- What the map finds at a word of the window. -/
theorem locOfWord_spec {a : Nat} (ha : a < 0x4000) : MapSpec a (locOfWord a) := by
  refine iteInduction (motive := MapSpec a) regLoc_spec fun h1 => ?_
  have h1 := Nat.le_of_not_lt h1
  refine iteInduction (motive := MapSpec a) (fun h => mapSpec_array trivial ?_) fun h2 => ?_
  · show 0x100 + (BitVec.ofNat 8 (a - 0x100)).toNat = a
    rw [toNat_ofNat_symbol (Nat.sub_lt_left_of_lt_add h1 h), Nat.add_sub_of_le h1]
  have h2 := Nat.le_of_not_lt h2
  refine iteInduction (motive := MapSpec a) (fun h => mapSpec_none (.inr (.inl ⟨four_mul_le h2, four_mul_lt h⟩)))
    fun h3 => ?_
  have h3 := Nat.le_of_not_lt h3
  refine iteInduction (motive := MapSpec a) (fun h => mapSpec_array (Nat.sub_lt_left_of_lt_add h3 h) (Nat.add_sub_of_le h3))
    fun h4 => ?_
  have h4 := Nat.le_of_not_lt h4
  refine iteInduction (motive := MapSpec a) (fun h => mapSpec_array (Nat.div_lt_of_lt_mul (Nat.sub_lt_left_of_lt_add h4 h)) ?_)
    fun h5 => ?_
  · show 0x800 + (4 * ((a - 0x800) / 4) + (nodeWordOf ((a - 0x800) % 4)).ctorIdx) = a
    rw [ctorIdx_nodeWordOf (Nat.mod_lt _ (Nat.succ_pos _)), Nat.div_add_mod, Nat.add_sub_of_le h4]
  have h5 := Nat.le_of_not_lt h5
  refine iteInduction (motive := MapSpec a)
    (fun h => mapSpec_none (.inr (.inr (.inl ⟨four_mul_le h5, four_mul_lt h⟩)))) fun h6 => ?_
  have h6 := Nat.le_of_not_lt h6
  refine iteInduction (motive := MapSpec a) (fun h => cbLoc_spec _ _ (Nat.mod_lt _ (Nat.succ_pos _)) ?_) fun h7 => ?_
  · rw [toNat_ofNat_symbol (Nat.div_lt_of_lt_mul (n := 16) (Nat.sub_lt_left_of_lt_add h6 h)), Nat.div_add_mod, Nat.add_sub_of_le h6]
  have h7 := Nat.le_of_not_lt h7
  refine iteInduction (motive := MapSpec a) (fun h => mapSpec_array (Nat.sub_lt_left_of_lt_add h7 h) (Nat.add_sub_of_le h7))
    fun h8 => ?_
  have h8 := Nat.le_of_not_lt h8
  exact mapSpec_array (Nat.sub_lt_left_of_lt_add h8 ha) (Nat.add_sub_of_le h8)

/-- A branch that is not taken. -/
theorem ite_eq_of_not {α : Type} {c : Prop} [Decidable c] {t e r : α} (h : ¬ c) (he : e = r) :
    (if c then t else e) = r := (if_neg h).trans he

/-- A word of a hole is past every bound below the hole. -/
theorem not_lt_of_hole {a b c : Nat} (h : 4 * b ≤ 4 * a) (hc : Nat.ble c b = true) : ¬ a < c :=
  Nat.not_lt.2 ((Nat.le_of_ble_eq_true hc).trans (Nat.le_of_mul_le_mul_left h (Nat.succ_pos 3)))

/-- The map finds nothing in a hole (R86). -/
theorem locOfWord_of_unmapped {a : Nat} (h : Unmapped (4 * a)) : locOfWord a = none := by
  have below {b : Nat} (hb : 4 * a < 4 * b) : a < b := Nat.lt_of_mul_lt_mul_left hb
  rcases h with ⟨hlo, hhi⟩ | ⟨hlo, hhi⟩ | ⟨hlo, hhi⟩ | ⟨hlo, hhi, hmod⟩
  · exact (if_pos (below (b := 0x100) hhi)).trans (regLoc_of_le (Nat.le_of_mul_le_mul_left hlo (Nat.succ_pos 3)))
  · have past {c : Nat} : Nat.ble c 0x200 = true → ¬ a < c := not_lt_of_hole hlo
    exact ite_eq_of_not (past rfl) <| ite_eq_of_not (past rfl) <| if_pos (below (b := 0x400) hhi)
  · have past {c : Nat} : Nat.ble c 0xFFC = true → ¬ a < c := not_lt_of_hole hlo
    exact ite_eq_of_not (past rfl) <| ite_eq_of_not (past rfl) <| ite_eq_of_not (past rfl) <|
      ite_eq_of_not (past rfl) <| ite_eq_of_not (past rfl) <| if_pos (below (b := 0x1000) hhi)
  · have past {c : Nat} : Nat.ble c 0x1000 = true → ¬ a < c := not_lt_of_hole hlo
    have hcb (x : Symbol) (w : Nat) (hw : 9 ≤ w) : cbLoc x w = none := by
      obtain ⟨k, rfl⟩ := Nat.exists_eq_add_of_le' hw
      exact if_neg (t := some (.cbCode x (k + 8))) (Nat.not_lt.2 (Nat.le_add_left 8 k))
    rw [entry_mod] at hmod
    exact ite_eq_of_not (past rfl) <| ite_eq_of_not (past rfl) <| ite_eq_of_not (past rfl) <|
      ite_eq_of_not (past rfl) <| ite_eq_of_not (past rfl) <| ite_eq_of_not (past rfl) <|
      (if_pos (below (b := 0x2000) hhi)).trans (hcb _ _ (Nat.le_of_mul_le_mul_left (a := 9) hmod (Nat.succ_pos 3)))

/-- A transaction that addresses a location is of 4 bytes at that location's offset. -/
theorem target_eq_some {size : Nat} {off : Offset} {l : Loc} (h : target size off = some l) :
    ∃ a, size = 4 ∧ off.toNat = 4 * a ∧ Found a l :=
  have ⟨⟨hs, halign⟩, hl⟩ := Option.ite_none_right_eq_some.1 h
  ⟨_, hs, (Nat.mul_div_cancel' (Nat.dvd_of_mod_eq_zero halign)).symm,
    (locOfWord_spec (Nat.div_lt_of_lt_mul off.isLt)).2 l hl⟩

/-- A transaction addresses nothing: the size or alignment is wrong, or nothing is mapped at the offset (R64 causes 1
and 2). -/
theorem target_eq_none (size : Nat) (off : Offset) :
    target size off = none ↔ (size ≠ 4 ∨ off.toNat % 4 ≠ 0) ∨ Unmapped off.toNat :=
  iteInduction (motive := fun o => o = none ↔ _)
    (fun h =>
      have hoff := Nat.mul_div_cancel' (Nat.dvd_of_mod_eq_zero h.2)
      ⟨fun hn => .inr (hoff ▸ (locOfWord_spec (Nat.div_lt_of_lt_mul off.isLt)).1 hn),
        fun hc => locOfWord_of_unmapped (hoff.symm ▸ hc.resolve_left (not_or.2 ⟨not_not.2 h.1, not_not.2 h.2⟩))⟩)
    fun h => iff_of_true rfl (.inl (not_and_or.1 h))

end Sys2Proof.Machine
end

section
/-! The access rules by offset (R63, R67 to R69, R77, R79) are the rules by location. -/

namespace Sys2Proof.Machine

/-- The rules for writes to the offset are those of the location: whether the host may write, the bits it may set, and
the range of the data. -/
def WriteRules (o : Nat) (l : Loc) : Prop :=
  (ReadOnlyOffset o ↔ writable l = false) ∧ (writable l = true → definedMask o = definedBits l) ∧
    ∀ v, DataOutOfRange o v ↔ inRange l v = false

/-! ## Offsets past the registers -/

theorem le_base_add {c b k : Nat} (h : Nat.ble c b = true) : c ≤ b + k :=
  (Nat.le_of_ble_eq_true h).trans (Nat.le_add_right b k)

theorem base_add_lt {b k n c : Nat} (hk : k < n) (h : Nat.ble (b + n) c = true) : b + k < c :=
  (Nat.add_lt_add_left hk b).trans_le (Nat.le_of_ble_eq_true h)

theorem not_mem_of_lt {os : List Nat} {b o : Nat} (hos : os.all (Nat.ble · b) = true) (h : b < o) : o ∉ os :=
  fun ho => Nat.not_le.2 h (Nat.le_of_ble_eq_true (List.all_eq_true.1 hos o ho))

theorem ne_of_past {o c : Nat} (h : 0x34 < o) (hc : Nat.ble c 0x34 = true) : o ≠ c :=
  ((Nat.le_of_ble_eq_true hc).trans_lt h).ne'

/-- Before the nodes, and between them and DSYM, the host may write. -/
theorem not_readOnlyOffset {a : Nat} (hreg : 0x34 < 4 * a) (hnode : a < 0x800 ∨ 0x1000 ≤ a) (hdsym : a < 0x3000) :
    ¬ ReadOnlyOffset (4 * a) :=
  not_or.2 ⟨not_mem_of_lt rfl hreg, not_or.2 ⟨fun ⟨hlo, hhi⟩ => hnode.elim (fun hn => Nat.not_le.2 (four_mul_lt hn) hlo)
    fun hn => Nat.not_lt.2 ((Nat.le_of_ble_eq_true rfl : 0x3FF0 ≤ 4 * 0x1000).trans (four_mul_le hn)) hhi,
    Nat.not_le.2 (four_mul_lt hdsym)⟩⟩

/-- The defined bits past the registers. -/
theorem definedMask_of_past {o : Nat} (h : 0x34 < o) : definedMask o =
    if 0x4000 ≤ o ∧ o < 0x8000 then
      (if (o - 0x4000) % 64 = 0 then 0x800000FF#32
      else if (o - 0x4000) % 64 = 0x20 then 0xFFFFFFFE#32
      else 0xFFFFFFFF#32)
    else if 0x8000 ≤ o ∧ o < 0xC000 then 0x000000FF#32
    else 0xFFFFFFFF#32 :=
  ite_eq_of_not (ne_of_past h rfl) <| ite_eq_of_not (ne_of_past h rfl) <| ite_eq_of_not (ne_of_past h rfl) <|
    ite_eq_of_not (ne_of_past h rfl) <| ite_eq_of_not (ne_of_past h rfl) <| ite_eq_of_not (ne_of_past h rfl) rfl

/-- Data past the registers is out of range in a CTL only (R77). -/
theorem dataOutOfRange_past {o : Nat} (v : Word) (h : 0x34 < o) :
    DataOutOfRange o v ↔ 0x4000 ≤ o ∧ o < 0x8000 ∧ (o - 0x4000) % 64 = 0 ∧ v.getLsbD 31 = true ∧ v.extractLsb' 0 8 = 0 :=
  (or_iff_right fun hs => ne_of_past h rfl hs.1).trans (or_iff_right fun hs => ne_of_past h rfl hs.1)

theorem not_dataOutOfRange {a : Nat} (hreg : 0x34 < 4 * a) (h : a < 0x1000 ∨ 0x2000 ≤ a) (v : Word) :
    ¬ DataOutOfRange (4 * a) v := fun hd =>
  have ⟨hlo, hhi, _⟩ := (dataOutOfRange_past v hreg).1 hd
  h.elim (fun h => Nat.not_le.2 (four_mul_lt h) hlo) fun h => Nat.not_lt.2 (four_mul_le h) hhi

/-! ## The rules for each array -/

theorem writeRules_readOnly {a : Nat} {l : Loc} (hreg : 0x34 < 4 * a) (h : a < 0x1000 ∨ 0x2000 ≤ a)
    (ho : ReadOnlyOffset (4 * a)) (hw : writable l = false) (hr : ∀ v, inRange l v = true) : WriteRules (4 * a) l :=
  ⟨iff_of_true ho hw, fun hn => absurd (hn.symm.trans hw) Bool.true_eq_false_eq_False,
    fun v => iff_of_false (not_dataOutOfRange hreg h v) (hr v ▸ Bool.true_eq_false_eq_False)⟩

/-- Before the nodes every bit is defined. -/
theorem writeRules_plain {a : Nat} {l : Loc} (hreg : 0x34 < 4 * a) (ha : a < 0x800) (hw : writable l = true)
    (hd : definedBits l = 0xFFFFFFFF#32) (hr : ∀ v, inRange l v = true) : WriteRules (4 * a) l := by
  have before {lo hi : Nat} (hlo : Nat.ble (4 * 0x800) lo = true) : ¬ (lo ≤ 4 * a ∧ 4 * a < hi) := fun hb =>
    Nat.not_le.2 ((four_mul_lt ha).trans_le (Nat.le_of_ble_eq_true hlo)) hb.1
  refine ⟨iff_of_false (not_readOnlyOffset hreg (.inl ha) (ha.trans_le (Nat.le_of_ble_eq_true rfl))) (hw ▸ Bool.true_eq_false_eq_False),
    fun _ => hd ▸ (definedMask_of_past hreg).trans (ite_eq_of_not (before rfl) (if_neg (before rfl))), fun v => ?_⟩
  exact iff_of_false (not_dataOutOfRange hreg (.inl (ha.trans_le (Nat.le_of_ble_eq_true rfl))) v) (hr v ▸ Bool.true_eq_false_eq_False)

theorem writeRules_symbuf {a : Nat} (j : Nat) (hreg : 0x34 < 4 * a) (hlo : 0x2000 ≤ a) (hhi : a < 0x3000) :
    WriteRules (4 * a) (.symbuf j) :=
  ⟨iff_of_false (not_readOnlyOffset hreg (.inr (hlo.trans' (Nat.le_of_ble_eq_true rfl))) hhi) Bool.true_eq_false_eq_False,
    fun _ => (definedMask_of_past hreg).trans (ite_eq_of_not (fun h => Nat.not_lt.2 (four_mul_le hlo) h.2)
      (if_pos ⟨four_mul_le hlo, four_mul_lt hhi⟩)),
    fun v => iff_of_false (not_dataOutOfRange hreg (.inr hlo) v) Bool.true_eq_false_eq_False⟩

/-- The data out of range for a CTL: valid with length 0 (R77). -/
theorem inRange_cbCtl_eq_false (x : Symbol) (v : Word) :
    inRange (.cbCtl x) v = false ↔ v.getLsbD 31 = true ∧ v.extractLsb' 0 8 = 0 := by
  refine (Bool.not_eq_false' (b := v.getLsbD 31 && v.extractLsb' 0 8 == 0)).to_iff.trans ?_
  rw [Bool.and_eq_true, beq_iff_eq]

/-- The rules at word `w` of a codebook entry are those of a location that may be written, of the bits R76 defines for
the word, with the range of R77 for word 0. -/
theorem writeRules_entry {k w a : Nat} {l : Loc} (hreg : 0x34 < 4 * a) (hk : k < 0x100) (hw : w < 16)
    (ha : 0x1000 + (16 * k + w) = a) (hl : writable l = true)
    (hd : definedBits l = if w = 0 then 0x800000FF#32 else if w = 8 then 0xFFFFFFFE#32 else 0xFFFFFFFF#32)
    (hr : ∀ v, (w = 0 ∧ v.getLsbD 31 = true ∧ v.extractLsb' 0 8 = 0) ↔ inRange l v = false) : WriteRules (4 * a) l := by
  obtain ⟨⟨hlo, hhi⟩, hm⟩ := entry_offset hk hw ha
  have hzero : 4 * w = 0 ↔ w = 0 := Nat.mul_right_inj (c := 0) (Nat.succ_ne_zero 3)
  refine ⟨iff_of_false (not_readOnlyOffset hreg (.inr (Nat.le_of_mul_le_mul_left hlo (Nat.succ_pos 3)))
    ((Nat.lt_of_mul_lt_mul_left hhi).trans_le (Nat.le_of_ble_eq_true rfl))) (hl ▸ Bool.true_eq_false_eq_False), fun _ => ?_, fun v => ?_⟩
  · refine (definedMask_of_past hreg).trans ((if_pos ⟨hlo, hhi⟩).trans ?_)
    rw [hm, hd]
    exact if_congr hzero rfl (if_congr (Nat.mul_right_inj (c := 8) (Nat.succ_ne_zero 3)) rfl rfl)
  · rw [dataOutOfRange_past v hreg, hm, hzero, and_iff_right hlo, and_iff_right hhi, hr]

/-- The arrays lie past the registers, and no word of them is reached while BUSY (R68). -/
theorem Loc.InArray.past {l : Loc} (h : l.InArray) :
    0x34 < 4 * l.wordNo ∧ (readableBusy l, writableBusy l) = (false, false) := by
  refine And.imp_left (fun hp => (Nat.le_of_ble_eq_true rfl : 0x35 ≤ 4 * 0x100).trans (four_mul_le hp)) ?_
  exact h.elim (P := fun l => 0x100 ≤ l.wordNo ∧ (readableBusy l, writableBusy l) = (false, false))
    (fun _ => ⟨le_base_add rfl, rfl⟩) (fun _ _ => ⟨le_base_add rfl, rfl⟩) (fun _ _ _ => ⟨le_base_add rfl, rfl⟩)
    (fun _ => ⟨le_base_add rfl, rfl⟩) (fun _ _ _ => ⟨le_base_add rfl, rfl⟩) (fun _ _ => ⟨le_base_add rfl, rfl⟩)
    (fun _ _ => ⟨le_base_add rfl, rfl⟩)

theorem node_lt {n : Nat} (f : NodeWord) (h : n < 0x1FF) : 0x800 + (4 * n + f.ctorIdx) < 0xFFC :=
  have hf : f.ctorIdx < 4 := by cases f <;> exact Nat.le_of_ble_eq_true rfl
  Nat.add_lt_add_left ((Nat.add_lt_add_left hf (4 * n)).trans_le (Nat.mul_le_mul_left 4 h)) 0x800

theorem Loc.InArray.writeRules {l : Loc} (h : l.InArray) : WriteRules (4 * l.wordNo) l :=
  h.elim (P := fun l => 0x34 < 4 * l.wordNo → WriteRules (4 * l.wordNo) l)
    (fun x hp => writeRules_plain hp (base_add_lt x.isLt rfl) rfl rfl fun _ => rfl)
    (fun _ h hp => writeRules_plain hp (base_add_lt h rfl) rfl rfl fun _ => rfl)
    (fun _ f h hp => writeRules_readOnly hp (.inl ((node_lt f h).trans_le (Nat.le_of_ble_eq_true rfl)))
      (.inr (.inl ⟨four_mul_le (a := 0x800) (Nat.le_add_right ..), four_mul_lt (b := 0xFFC) (node_lt f h)⟩)) rfl fun _ => rfl)
    (fun x hp => writeRules_entry hp x.isLt (Nat.succ_pos _) rfl rfl rfl fun v =>
      (and_iff_right rfl).trans (inRange_cbCtl_eq_false x v).symm)
    (fun x w h hp => writeRules_entry (w := w + 1) hp x.isLt ((Nat.succ_lt_succ h).trans_le (Nat.le_of_ble_eq_true rfl)) rfl rfl
      (ite_eq_of_not (Nat.succ_ne_zero w) (if_congr (Nat.succ_inj (b := 7)) rfl rfl)).symm fun _ =>
      iff_of_false (fun hz => Nat.succ_ne_zero w hz.1) Bool.true_eq_false_eq_False)
    (fun j h hp => writeRules_symbuf j hp (Nat.le_add_right ..) (base_add_lt h rfl))
    (fun _ _ hp => writeRules_readOnly hp (.inr (le_base_add rfl)) (.inr (.inr (four_mul_le (a := 0x3000) (Nat.le_add_right ..))))
      rfl fun _ => rfl) h.past.1

/-! ## The registers, and the rules for every location -/

theorem dataOutOfRange_register {a : Nat} {l : Loc} (ha : a < 14) (hl : regLoc a = some l) (v : Word) :
    DataOutOfRange (4 * a) v ↔ inRange l v = false := by
  have hout {o : Nat} {p : Prop} (h : Nat.ble 0x4000 o = false) : ¬ (0x4000 ≤ o ∧ p) := fun hc =>
    Nat.not_le_of_not_ble_eq_true (Bool.eq_false_iff.1 h) hc.1
  obtain rfl | rfl | h := register_forall
    (fun k l => k = 8 ∨ k = 9 ∨ (DataOutOfRange (4 * k) v ↔ inRange l v = false)) rfl ha hl
  · obtain rfl := Option.some.inj hl
    exact (or_iff_left (not_or.2 ⟨fun h => Nat.ne_of_beq_eq_false rfl h.1, hout rfl⟩)).trans <|
      (and_iff_right rfl).trans (Nat.not_le.symm.trans decide_eq_false_iff_not.symm)
  · obtain rfl := Option.some.inj hl
    exact (or_iff_right fun h => Nat.ne_of_beq_eq_false rfl h.1).trans <| (or_iff_left (hout rfl)).trans <|
      (and_iff_right rfl).trans (Nat.not_le.symm.trans decide_eq_false_iff_not.symm)
  · exact h

/-- The access rules of an offset are those of the location found there. -/
theorem Found.rules {a : Nat} {l : Loc} (h : Found a l) :
    (BusyReadOffset (4 * a) ↔ readableBusy l = true) ∧ (BusyWriteOffset (4 * a) ↔ writableBusy l = true) ∧
      WriteRules (4 * a) l := by
  obtain ⟨rfl, harray | ⟨ha, hl⟩⟩ := h
  · obtain ⟨hp, hb⟩ := harray.past
    obtain ⟨hr, hw⟩ := Prod.mk.inj hb
    exact ⟨iff_of_false (not_mem_of_lt rfl hp) fun h => Bool.true_eq_false_eq_False (h.symm.trans hr),
      iff_of_false (not_mem_of_lt rfl hp) fun h => Bool.true_eq_false_eq_False (h.symm.trans hw), harray.writeRules⟩
  · obtain ⟨hr, hw, hro, hmask⟩ := register_forall (fun k l => (BusyReadOffset (4 * k) ↔ readableBusy l = true) ∧
      (BusyWriteOffset (4 * k) ↔ writableBusy l = true) ∧ (ReadOnlyOffset (4 * k) ↔ writable l = false) ∧
      (writable l = true → definedMask (4 * k) = definedBits l)) rfl ha hl
    exact ⟨hr, hw, hro, hmask, dataOutOfRange_register ha hl⟩

end Sys2Proof.Machine
end

section
/-! The host's two transactions (R60, R61, R64 to R70): the accesses that are refused, and what no action but a reset
changes. -/

namespace Sys2Proof.Machine

/-- A read's answer is its outcome (R60). -/
theorem readResponse_spec (size : Nat) (off : Offset) (s : State) :
    (readResponse size off s = .accessError ↔ memRead size off s = none) ∧
      ∀ v, readResponse size off s = .value v ↔ memRead size off s = some v := by
  have hanswer : readResponse size off s = (memRead size off s).elim .accessError .value := by
    show (match memRead size off s with | some v => Response.value v | none => .accessError) = _
    cases memRead size off s <;> rfl
  rw [hanswer]
  cases memRead size off s with
  | none => exact ⟨iff_of_true rfl rfl, fun v => iff_of_false Response.noConfusion (Option.some_ne_none v).symm⟩
  | some w => exact ⟨iff_of_false Response.noConfusion (Option.some_ne_none w), fun v =>
      (Response.value.injEq w v).to_iff.trans (Option.some.injEq w v).to_iff.symm⟩

/-- Settles O40: a read only records its answer. -/
theorem readsHaveNoSideEffect : Obligations.ReadsHaveNoSideEffect := fun size off s =>
  ⟨readResponse size off s, serveHost_read size off s, readResponse_spec size off s⟩

/-- Settles O41: the two ends of a write. -/
theorem refusedWritesChangeNothing : Obligations.RefusedWritesChangeNothing := fun size off v s =>
  ⟨serveHost_refused size off v s, serveHost_written size off v s⟩

/-! ## Refused accesses (R64) -/

/-- An outcome that comes exactly from a location under a condition is missing exactly where no location meets it. -/
theorem eq_none_iff {α : Type} {size : Nat} {off : Offset} {o : Option α} {p : Loc → Prop} {r : Loc → α}
    (h : ∀ t, o = some t ↔ ∃ l, target size off = some l ∧ p l ∧ r l = t) :
    o = none ↔ ∀ l, target size off = some l → ¬ p l :=
  Option.eq_none_iff_forall_ne_some.trans ⟨fun hn l hl hp => hn (r l) ((h _).2 ⟨l, hl, hp, rfl⟩), fun hn t ht =>
    (h t).1 ht |>.elim fun l hl => hn l hl.1 hl.2.1⟩

/-- Settles O42: a mapped location is at its own offset, where only the busy lockout is left. -/
theorem readRefusedExactlyWhen : Obligations.ReadRefusedExactlyWhen := by
  intro size off s
  rw [← or_assoc, ← target_eq_none, eq_none_iff (memRead_eq_some size off s)]
  cases ht : target size off with
  | none => exact iff_of_true (fun l hl => absurd hl.symm (Option.some_ne_none l)) (.inl rfl)
  | some l =>
    obtain ⟨a, -, ho, hl⟩ := target_eq_some ht
    obtain ⟨hread, -⟩ := hl.rules
    simp only [or_iff_right (Option.some_ne_none l), ho, hread, Option.some.injEq, forall_eq', Classical.not_imp]

/-- Settles O43: a mapped location is at its own offset, where the rules by offset are the rules by location. -/
theorem writeRefusedExactlyWhen : Obligations.WriteRefusedExactlyWhen := by
  intro size off v s
  have hserved (t : State) : memWrite size off v s = some t ↔ ∃ l, target size off = some l ∧ (writable l = true ∧
      (s.busy = true → writableBusy l = true) ∧ v &&& ~~~definedBits l = 0 ∧ inRange l v = true) ∧ writeLoc l v s = t := by
    simp only [memWrite_eq_some, and_assoc]
  rw [← or_assoc, ← target_eq_none, eq_none_iff hserved]
  cases ht : target size off with
  | none => exact iff_of_true (fun l hl => absurd hl.symm (Option.some_ne_none l)) (.inl rfl)
  | some l =>
    obtain ⟨a, -, ho, hl⟩ := target_eq_some ht
    obtain ⟨-, hwrite, hro, hmask, hrange⟩ := hl.rules
    simp only [or_iff_right (Option.some_ne_none l), ho, hro, hwrite, hrange, Option.some.injEq, forall_eq', not_and_or,
      Classical.not_imp, Bool.not_eq_true]
    cases hw : writable l with
    | true => rw [hmask hw]
    | false => exact iff_of_true (.inl rfl) (.inl rfl)

/-! ## What no host action but a reset changes (R67, R68) -/

/-- What an action of the host that is no reset can do: record an answer, or write a location (R60, R61). -/
theorem serveHost_cases (P : State → Prop) (a : HostAction) (s : State) (h : ¬ Resets a)
    (answers : ∀ r, P { s with response := r })
    (writes : ∀ k l v, Found k l → (s.busy = true → writableBusy l = true) → (l = .ctrl → v.getLsbD 31 = false) →
      P { writeLoc l v s with response := some .ok }) : P (serveHost a s) := by
  cases a with
  | read size off => exact answers _
  | write size off v =>
    cases hw : memWrite size off v s with
    | none => rw [serveHost_refused _ _ _ _ hw]; exact answers _
    | some t =>
      rw [serveHost_written _ _ _ _ _ hw]
      obtain ⟨l, ht, -, hbusy, -, -, rfl⟩ := (memWrite_eq_some size off v s t).1 hw
      obtain ⟨k, -, ho, hl⟩ := target_eq_some ht
      refine writes k l v hl hbusy fun hctrl => eq_false_of_ne_true fun hv => h ⟨BitVec.eq_of_toNat_eq ?_, hv⟩
      rw [ho, ← hl.1, hctrl]
      rfl
  | hardReset => exact absurd trivial h

theorem writeLoc_ctrl (v : Word) (s : State) (h : v.getLsbD 31 = false) :
    writeLoc .ctrl v s = { s with ie := v.getLsbD 0 } :=
  if_neg (Bool.eq_false_iff.1 h)

/-- Settles O11: while BUSY the host reaches CTRL.IE and STATUS, and DONE is clear then (R35). -/
theorem hostCannotDisturbACommand : Obligations.HostCannotDisturbACommand := by
  intro a s hsound hbusy hreset
  refine serveHost_cases (fun t => t = { s with ie := t.ie, response := t.response }) a s hreset (fun _ => rfl) ?_
  rintro k l v ⟨-, harray | ⟨hk, hl⟩⟩ hb hctrl
  · exact absurd ((hb hbusy).symm.trans (Prod.mk.inj harray.past.2).2) Bool.true_eq_false_eq_False
  obtain rfl | rfl := register_forall (fun _ l => writableBusy l = true → l = .ctrl ∨ l = .status) rfl hk hl (hb hbusy)
  · rw [writeLoc_ctrl v s (hctrl rfl)]
  · obtain ⟨-, -, ⟨-, hreport⟩, -⟩ := (blockSound_iff s).1 hsound
    have hdone : ackDone s.done v = s.done := (hreport hbusy).1 ▸ rfl
    show ({ s with done := ackDone s.done v, response := some .ok } : State) = _
    rw [hdone]
    rfl

/-- The tree and the decoded output (R41, R44). -/
noncomputable def treeAndOutput (s : State) :=
  (nodeAt s.mem, s.root, s.nnodes, s.nleaves, s.treeValid, dsymAt s.mem, s.dsymlen)

theorem sameTreeAndOutput {s t : State} (h : treeAndOutput t = treeAndOutput s) :
    SameArtifact .tree s t ∧ SameArtifact .dsym s t :=
  have ⟨hnode, h⟩ := Prod.mk.inj h
  have ⟨hroot, h⟩ := Prod.mk.inj h
  have ⟨hnnodes, h⟩ := Prod.mk.inj h
  have ⟨hnleaves, h⟩ := Prod.mk.inj h
  have ⟨hvalid, h⟩ := Prod.mk.inj h
  have ⟨hdsym, hlen⟩ := Prod.mk.inj h
  ⟨⟨congrFun hnode, hroot, hnnodes, hnleaves, hvalid⟩, congrFun hdsym, hlen⟩

/-- No writable location holds a part of them. -/
theorem treeAndOutput_writeLoc (l : Loc) (v : Word) (s : State) :
    (l = .ctrl → v.getLsbD 31 = false) → treeAndOutput (writeLoc l v s) = treeAndOutput s :=
  l.rec (motive := fun l => (l = .ctrl → v.getLsbD 31 = false) → treeAndOutput (writeLoc l v s) = treeAndOutput s)
    (ctrl := fun h => writeLoc_ctrl v s (h rfl) ▸ rfl) (fun _ => rfl) (fun _ => rfl) (fun _ => rfl) (fun _ => rfl)
    (fun _ => rfl) (fun _ => rfl) (fun _ => rfl) (fun _ => rfl) (fun _ => rfl) (fun _ => rfl) (fun _ => rfl)
    (fun _ => rfl) (fun _ => rfl) (fun _ _ => rfl) (fun _ _ => rfl) (fun _ _ _ => rfl) (fun _ _ => rfl)
    (fun _ _ _ => rfl) (fun _ _ => rfl) (fun _ _ => rfl)

/-- Settles O51: a write of the host is of a writable location. -/
theorem hostCannotWriteTreeOrOutput : Obligations.HostCannotWriteTreeOrOutput := fun a s hreset =>
  sameTreeAndOutput <| serveHost_cases (fun t => treeAndOutput t = treeAndOutput s) a s hreset (fun _ => rfl)
    fun _ l v _ _ => treeAndOutput_writeLoc l v s

end Sys2Proof.Machine
end

section
/-! The idle block's transactions at the offset of a location, and what a word with defined bits only holds (R69, R74,
R76, R77, R79). -/

namespace Sys2Proof.Machine

/-! ## Data with defined bits only (R69) -/

/-- A word has defined bits only when the mask leaves it as it is. -/
theorem defined_iff (v m : Word) : v &&& ~~~m = 0 ↔ v &&& m = v := by
  have hor : (v &&& m) ||| (v &&& ~~~m) = v := by
    rw [← BitVec.and_or_distrib_left, BitVec.or_not_self, BitVec.and_allOnes]
  constructor
  · intro h
    rw [h] at hor
    exact BitVec.or_zero.symm.trans hor
  · intro h
    rw [← h, BitVec.and_assoc, BitVec.and_not_self]
    exact BitVec.and_zero

/-- The defined bits are the `k` lowest: the word is below `2 ^ k`. -/
theorem low_bits_defined_iff (v : Word) {m : Word} (k : Nat) (hm : m.toNat = 2 ^ k - 1) :
    v &&& ~~~m = 0 ↔ v.toNat < 2 ^ k := by
  rw [defined_iff, ← BitVec.toNat_inj, BitVec.toNat_and, hm, Nat.and_two_pow_sub_one_eq_mod,
    Nat.mod_eq_iff_lt (Nat.two_pow_pos k).ne']

/-- A word below `2 ^ k` survives storing in `k` bits. -/
theorem setWidth_setWidth_of_lt (v : Word) {k : Nat} (h : v.toNat < 2 ^ k) : (v.setWidth k).setWidth 32 = v :=
  BitVec.eq_of_toNat_eq <| by
    rw [BitVec.toNat_setWidth, BitVec.toNat_setWidth, Nat.mod_eq_of_lt h, Nat.mod_eq_of_lt v.isLt]

/-- CTL of what a CTL write stores is the word written (R76). -/
theorem ctlWord_of_defined {v : Word} (code : CodeVec) (h : v &&& ~~~0x800000FF#32 = 0) :
    ctlWord ⟨v.getLsbD 31, v.extractLsb' 0 8, code⟩ = v := by
  have hbit (x : BitVec 1) : BitVec.ofBool (x == 1#1) = x := by
    rcases BitVec.eq_zero_or_eq_one x with rfl | rfl <;> rfl
  have hmid : 0#23 = v.extractLsb' 8 23 := by
    rw [← (defined_iff v _).1 h, BitVec.extractLsb'_and]
    exact BitVec.and_zero.symm
  show BitVec.ofBool (v.getLsbD 31) ++ 0#23 ++ v.extractLsb' 0 8 = v
  rw [BitVec.getLsbD_eq_extractLsb', hbit, hmid,
    BitVec.extractLsb'_append_extractLsb'_eq_extractLsb' (start₁ := 8) (start₂ := 31) rfl,
    BitVec.extractLsb'_append_extractLsb'_eq_extractLsb' (start₁ := 0) (start₂ := 8) rfl]
  exact BitVec.extractLsb'_eq_self

/-! ## Transactions at the offset of a word -/

theorem target_word {a : Nat} (ha : a < 0x4000) : target 4 (BitVec.ofNat 16 (4 * a)) = locOfWord a := by
  have hoff : (BitVec.ofNat 16 (4 * a)).toNat = 4 * a := Nat.mod_eq_of_lt (four_mul_lt ha)
  refine (if_pos ⟨rfl, (congrArg (· % 4) hoff).trans (Nat.mul_mod_right 4 a)⟩).trans ?_
  rw [hoff, Nat.mul_div_cancel_left a (Nat.succ_pos 3)]

/-- The map at word `w` of entry `x` of the codebook. -/
theorem target_entry (x : Symbol) {w : Nat} (h : w < 16) :
    target 4 (BitVec.ofNat 16 (0x4000 + (64 * x.toNat + 4 * w))) = cbLoc x w := by
  have past {c : Nat} (hc : Nat.ble c 0x1000 = true) : ¬ 0x1000 + (16 * x.toNat + w) < c := Nat.not_lt.2 (le_base_add hc)
  have hhi := entry_lt x.isLt h
  have hoff : 4 * (0x1000 + (16 * x.toNat + w)) = 0x4000 + (64 * x.toNat + 4 * w) := by omega
  rw [← hoff, target_word (hhi.trans_le (Nat.le_of_ble_eq_true rfl))]
  refine (ite_eq_of_not (past rfl) <| ite_eq_of_not (past rfl) <|
      ite_eq_of_not (past rfl) <| ite_eq_of_not (past rfl) <|
      ite_eq_of_not (past rfl) <| ite_eq_of_not (past rfl) <| if_pos hhi).trans ?_
  rw [Nat.add_sub_cancel_left, Nat.mul_add_div (Nat.succ_pos 15), Nat.div_eq_of_lt h, Nat.mul_add_mod,
    Nat.mod_eq_of_lt h]
  exact congrArg (cbLoc · w) (BitVec.eq_of_toNat_eq (toNat_ofNat_symbol x.isLt))

/-- The idle block checks the data of a write alone. -/
theorem memWrite_idle {off : Offset} {l : Loc} {v : Word} {s : State} {c : Prop} [Decidable c] (h : target 4 off = some l)
    (hw : writable l = true) (hb : s.busy = false) (hc : (v &&& ~~~definedBits l = 0 ∧ inRange l v = true) ↔ c) :
    memWrite 4 off v s = if c then some (writeLoc l v s) else none := by
  ext t
  rw [memWrite_eq_some, h, Option.ite_none_right_eq_some, ← hc, Option.some.injEq]
  constructor
  · rintro ⟨l', hl, -, -, hd, hr, ht⟩
    exact Option.some.inj hl ▸ ⟨⟨hd, hr⟩, ht⟩
  · rintro ⟨⟨hd, hr⟩, ht⟩
    exact ⟨l, rfl, hw, fun hbusy => absurd (hbusy.symm.trans hb) Bool.true_eq_false_eq_False, hd, hr, ht⟩

/-- A length register holds its capacity, so the range check is the only one (R69, R79). -/
theorem defined_and_le_iff (v : Word) {m : Word} (k : Nat) {b : Nat} (hm : m.toNat = 2 ^ k - 1) (hb : b < 2 ^ k) :
    v &&& ~~~m = 0 ∧ decide (v.toNat ≤ b) = true ↔ v.toNat ≤ b := by
  rw [decide_eq_true_iff, low_bits_defined_iff v k hm]
  exact and_iff_right_of_imp fun h => h.trans_lt hb

/-- Settles O46: both registers hold their capacity, so the range check is the only one. -/
theorem lengthWritesAreRangeChecked : Obligations.LengthWritesAreRangeChecked := fun v _ hb =>
  ⟨memWrite_idle (l := .symlen) rfl rfl hb (defined_and_le_iff v 13 rfl (Nat.le_of_ble_eq_true rfl)),
    memWrite_idle (l := .bitlen) rfl rfl hb (defined_and_le_iff v 16 rfl (Nat.le_of_ble_eq_true rfl))⟩

/-- Settles O47: an idle CTL write is left with the range check, and of the words with defined bits only one is out of
range. -/
theorem ctlWritesAreChecked : Obligations.CtlWritesAreChecked := by
  intro x v s hb hd
  have hserved : v &&& ~~~definedBits (.cbCtl x) = 0 ∧ inRange (.cbCtl x) v = true ↔ v ≠ 0x80000000#32 := by
    rw [← Bool.not_eq_false, ne_eq, inRange_cbCtl_eq_false]
    refine (and_iff_right hd).trans (not_congr ⟨fun ⟨hvalid, hlen⟩ => ?_, fun hv => hv ▸ ⟨rfl, rfl⟩⟩)
    rw [← ctlWord_of_defined 0 hd, hvalid, hlen]
    rfl
  exact (memWrite_idle (target_entry x (w := 0) (Nat.succ_pos _)) rfl hb hserved).trans (ite_not ..)

end Sys2Proof.Machine
end
